-- ==== Sys2Proof/Word.lean ====
section
/-! DEFINITION. The bit-vector widths of the CHIP-8 core and the names of its register indices. -/

namespace Sys2Proof

/-- An 8-bit value: a general register, a timer, a byte of RAM, the immediate `NN` (R20, R30, R31, R73). -/
abbrev Byte := BitVec 8

/-- A 16-bit value: an opcode, the program counter, `I`, a stack entry (R23, R25, R27, R70). -/
abbrev Word := BitVec 16

/-- The 12-bit immediate `NNN` of an opcode (R71, R73). -/
abbrev Addr12 := BitVec 12

/-- The index `k` of a general register `Vk`, 0 to 15 (R20). -/
abbrev RegIdx := Fin 16

/-- The index of `V0`, the implicit operand of `BNNN` (R74, R123). -/
abbrev v0 : RegIdx := 0

/-- The index of `VF`, the register that doubles as the flag (R22). -/
abbrev vF : RegIdx := 15

end Sys2Proof
end

