-- ==== Sys2Proof/Syntax.lean ====
section
/-! DEFINITION. The instructions: one constructor for each row of the opcode map (R76, spec/opcode_table.json), with its fields as R71 and R72 name them. -/

namespace Sys2Proof

/-- The 24 rows of R76. A register field is an index 0 to 15, `nn` and `nnn` are the immediates as they stand (R73), and `n` is a row count (R73). -/
inductive Instr where
  /-- `00E0` CLS (R174) -/
  | cls
  /-- `00EE` RET (R120) -/
  | ret
  /-- `1NNN` JP (R121) -/
  | jp (nnn : Addr12)
  /-- `2NNN` CALL (R122) -/
  | call (nnn : Addr12)
  /-- `3XNN` SE Vx, nn (R131) -/
  | seImm (x : RegIdx) (nn : Byte)
  /-- `4XNN` SNE Vx, nn (R132) -/
  | sneImm (x : RegIdx) (nn : Byte)
  /-- `5XY0` SE Vx, Vy (R133) -/
  | seReg (x y : RegIdx)
  /-- `6XNN` LD Vx, nn (R141) -/
  | ldImm (x : RegIdx) (nn : Byte)
  /-- `7XNN` ADD Vx, nn (R142) -/
  | addImm (x : RegIdx) (nn : Byte)
  /-- `8XY0` LD Vx, Vy (R143) -/
  | ldReg (x y : RegIdx)
  /-- `8XY1` OR (R144) -/
  | orReg (x y : RegIdx)
  /-- `8XY2` AND (R145) -/
  | andReg (x y : RegIdx)
  /-- `8XY3` XOR (R146) -/
  | xorReg (x y : RegIdx)
  /-- `8XY4` ADD Vx, Vy (R147) -/
  | addReg (x y : RegIdx)
  /-- `8XY5` SUB (R148) -/
  | subReg (x y : RegIdx)
  /-- `8XY6` SHR (R150): recognised, and its one effect is a fault -/
  | shrReg (x y : RegIdx)
  /-- `8XY7` SUBN (R151) -/
  | subnReg (x y : RegIdx)
  /-- `9XY0` SNE Vx, Vy (R134) -/
  | sneReg (x y : RegIdx)
  /-- `ANNN` LD I, nnn (R160) -/
  | ldI (nnn : Addr12)
  /-- `BNNN` JP V0, nnn (R123) -/
  | jpV0 (nnn : Addr12)
  /-- `CXNN` RND (R162) -/
  | rnd (x : RegIdx) (nn : Byte)
  /-- `DXYN` DRW (R175) -/
  | drw (x y : RegIdx) (n : Nat)
  /-- `EX__` reserved class E (R190); the ignored bits 11 to 0 are kept only so that the word can be written again (notes/assumptions/9.md) -/
  | rsve (bits : Addr12)
  /-- `FX__` reserved class F (R191); its bits 11 to 0 as in `rsve` -/
  | rsvf (bits : Addr12)
  deriving DecidableEq, Repr

end Sys2Proof
end

