-- ==== Sys2Proof/Decode.lean ====
section
/-! DEFINITION. The decoder (R75), total on every word and on every byte sequence, the opcode map as data (R76), and the encoder written from the same map. -/

namespace Sys2Proof

/-- Why a word, or a byte sequence, is no instruction. -/
inductive DecodeError where
  /-- a class-0 word other than 0x00E0 and 0x00EE (R80) -/
  | class0Word
  /-- `5XYn` with `n` not 0 (R81) -/
  | class5Nibble
  /-- `8XYn` with `n` from 8 to F (R82) -/
  | class8Nibble
  /-- `9XYn` with `n` not 0 (R81) -/
  | class9Nibble
  /-- fewer than the two bytes of an instruction (R70) -/
  | truncated
  deriving DecidableEq, Repr

/-- The register index a 4-bit field selects (R20, R71). -/
def regOf (b : BitVec 4) : RegIdx := ⟨b.toNat, b.isLt⟩

/-- The 4-bit field that selects register `x`. -/
def nibble (x : RegIdx) : BitVec 4 := BitVec.ofNat 4 x.val

/-- `class = op[15:12]` (R71). -/
def opClass (op : Word) : BitVec 4 := op.extractLsb' 12 4

/-- `X = op[11:8]` (R71). -/
def fieldX (op : Word) : RegIdx := regOf (op.extractLsb' 8 4)

/-- `Y = op[7:4]` (R71). -/
def fieldY (op : Word) : RegIdx := regOf (op.extractLsb' 4 4)

/-- `N = op[3:0]` (R71), as a number. -/
def fieldN (op : Word) : Nat := (op.extractLsb' 0 4).toNat

/-- `NN = op[7:0]` (R71). -/
def fieldNN (op : Word) : Byte := op.extractLsb' 0 8

/-- `NNN = op[11:0]` (R71). -/
def fieldNNN (op : Word) : Addr12 := op.extractLsb' 0 12

/-- Class 0 compares the whole word (R75 step 2, R80). -/
def decodeClass0 (op : Word) : Except DecodeError Instr :=
  if op = 0x00E0#16 then .ok .cls
  else if op = 0x00EE#16 then .ok .ret
  else .error .class0Word

/-- Class 8 dispatches on `N` (R75 step 5, R82, R83). -/
def decodeClass8 (op : Word) : Except DecodeError Instr :=
  match fieldN op with
  | 0 => .ok (.ldReg (fieldX op) (fieldY op))
  | 1 => .ok (.orReg (fieldX op) (fieldY op))
  | 2 => .ok (.andReg (fieldX op) (fieldY op))
  | 3 => .ok (.xorReg (fieldX op) (fieldY op))
  | 4 => .ok (.addReg (fieldX op) (fieldY op))
  | 5 => .ok (.subReg (fieldX op) (fieldY op))
  | 6 => .ok (.shrReg (fieldX op) (fieldY op))
  | 7 => .ok (.subnReg (fieldX op) (fieldY op))
  | _ => .error .class8Nibble

/-- The decode procedure of R75. All 16 classes are dispatched; the last arm is class F, the only class left. -/
def decode (op : Word) : Except DecodeError Instr :=
  match (opClass op).toNat with
  | 0x0 => decodeClass0 op
  | 0x1 => .ok (.jp (fieldNNN op))
  | 0x2 => .ok (.call (fieldNNN op))
  | 0x3 => .ok (.seImm (fieldX op) (fieldNN op))
  | 0x4 => .ok (.sneImm (fieldX op) (fieldNN op))
  | 0x5 => if fieldN op = 0 then .ok (.seReg (fieldX op) (fieldY op)) else .error .class5Nibble
  | 0x6 => .ok (.ldImm (fieldX op) (fieldNN op))
  | 0x7 => .ok (.addImm (fieldX op) (fieldNN op))
  | 0x8 => decodeClass8 op
  | 0x9 => if fieldN op = 0 then .ok (.sneReg (fieldX op) (fieldY op)) else .error .class9Nibble
  | 0xA => .ok (.ldI (fieldNNN op))
  | 0xB => .ok (.jpV0 (fieldNNN op))
  | 0xC => .ok (.rnd (fieldX op) (fieldNN op))
  | 0xD => .ok (.drw (fieldX op) (fieldY op) (fieldN op))
  | 0xE => .ok (.rsve (fieldNNN op))
  | _ => .ok (.rsvf (fieldNNN op))

/-- An instruction's two bytes, high byte first (R52, R70). -/
def wordOfBytes (b0 b1 : Byte) : Word := b0 ++ b1

/-- Decoding a byte sequence: the first instruction and the bytes after it (R70). -/
def decodeBytes : List Byte → Except DecodeError (Instr × List Byte)
  | b0 :: b1 :: rest =>
    match decode (wordOfBytes b0 b1) with
    | .ok i => .ok (i, rest)
    | .error e => .error e
  | _ => .error .truncated

/-- The high byte of a word, stored at the lower address (R52). -/
def highByte (w : Word) : Byte := w.extractLsb' 8 8

/-- The low byte of a word, stored at the higher address (R52). -/
def lowByte (w : Word) : Byte := w.extractLsb' 0 8

/-- The word whose `nbits` low bits are those of `w` and whose other bits are 0; every instruction is one 16-bit word (R70). -/
def tableWord (nbits w : Nat) : Word := BitVec.ofNat 16 (w % 2 ^ nbits)

/-- What the decoder reads from the word `w` laid out in RAM order, high byte first. -/
def decodeTableWord (nbits w : Nat) : Option Instr :=
  match decodeBytes [highByte (tableWord nbits w), lowByte (tableWord nbits w)] with
  | .ok (i, _) => some i
  | .error _ => none

/-- The word of an instruction, field by field as R72 lays the formats out and R76 fixes the rest. -/
def encode : Instr → Word
  | .cls => 0x00E0#16
  | .ret => 0x00EE#16
  | .jp nnn => 0x1#4 ++ nnn
  | .call nnn => 0x2#4 ++ nnn
  | .seImm x nn => 0x3#4 ++ nibble x ++ nn
  | .sneImm x nn => 0x4#4 ++ nibble x ++ nn
  | .seReg x y => 0x5#4 ++ nibble x ++ nibble y ++ 0x0#4
  | .ldImm x nn => 0x6#4 ++ nibble x ++ nn
  | .addImm x nn => 0x7#4 ++ nibble x ++ nn
  | .ldReg x y => 0x8#4 ++ nibble x ++ nibble y ++ 0x0#4
  | .orReg x y => 0x8#4 ++ nibble x ++ nibble y ++ 0x1#4
  | .andReg x y => 0x8#4 ++ nibble x ++ nibble y ++ 0x2#4
  | .xorReg x y => 0x8#4 ++ nibble x ++ nibble y ++ 0x3#4
  | .addReg x y => 0x8#4 ++ nibble x ++ nibble y ++ 0x4#4
  | .subReg x y => 0x8#4 ++ nibble x ++ nibble y ++ 0x5#4
  | .shrReg x y => 0x8#4 ++ nibble x ++ nibble y ++ 0x6#4
  | .subnReg x y => 0x8#4 ++ nibble x ++ nibble y ++ 0x7#4
  | .sneReg x y => 0x9#4 ++ nibble x ++ nibble y ++ 0x0#4
  | .ldI nnn => 0xA#4 ++ nnn
  | .jpV0 nnn => 0xB#4 ++ nnn
  | .rnd x nn => 0xC#4 ++ nibble x ++ nn
  | .drw x y n => 0xD#4 ++ nibble x ++ nibble y ++ BitVec.ofNat 4 n
  | .rsve bits => 0xE#4 ++ bits
  | .rsvf bits => 0xF#4 ++ bits

/-- A row of the opcode map: `op` matches it when `op & mask = pattern` (R76). -/
structure OpcodeRow where
  pattern : Word
  mask : Word
  deriving DecidableEq, Repr

/-- The row's test of R76. -/
def OpcodeRow.matchesWord (r : OpcodeRow) (op : Word) : Bool := (op &&& r.mask) = r.pattern

/-- The row of R76 that an instruction belongs to, its `match` and its `mask` as the table prints them. -/
def opcodeRowOf : Instr → OpcodeRow
  | .cls => ⟨0x00E0#16, 0xFFFF#16⟩
  | .ret => ⟨0x00EE#16, 0xFFFF#16⟩
  | .jp _ => ⟨0x1000#16, 0xF000#16⟩
  | .call _ => ⟨0x2000#16, 0xF000#16⟩
  | .seImm _ _ => ⟨0x3000#16, 0xF000#16⟩
  | .sneImm _ _ => ⟨0x4000#16, 0xF000#16⟩
  | .seReg _ _ => ⟨0x5000#16, 0xF00F#16⟩
  | .ldImm _ _ => ⟨0x6000#16, 0xF000#16⟩
  | .addImm _ _ => ⟨0x7000#16, 0xF000#16⟩
  | .ldReg _ _ => ⟨0x8000#16, 0xF00F#16⟩
  | .orReg _ _ => ⟨0x8001#16, 0xF00F#16⟩
  | .andReg _ _ => ⟨0x8002#16, 0xF00F#16⟩
  | .xorReg _ _ => ⟨0x8003#16, 0xF00F#16⟩
  | .addReg _ _ => ⟨0x8004#16, 0xF00F#16⟩
  | .subReg _ _ => ⟨0x8005#16, 0xF00F#16⟩
  | .shrReg _ _ => ⟨0x8006#16, 0xF00F#16⟩
  | .subnReg _ _ => ⟨0x8007#16, 0xF00F#16⟩
  | .sneReg _ _ => ⟨0x9000#16, 0xF00F#16⟩
  | .ldI _ => ⟨0xA000#16, 0xF000#16⟩
  | .jpV0 _ => ⟨0xB000#16, 0xF000#16⟩
  | .rnd _ _ => ⟨0xC000#16, 0xF000#16⟩
  | .drw _ _ _ => ⟨0xD000#16, 0xF000#16⟩
  | .rsve _ => ⟨0xE000#16, 0xF000#16⟩
  | .rsvf _ => ⟨0xF000#16, 0xF000#16⟩

/-- The 24 rows of R76 in the table's order. -/
def opcodeRows : List OpcodeRow :=
  [⟨0x00E0#16, 0xFFFF#16⟩, ⟨0x00EE#16, 0xFFFF#16⟩, ⟨0x1000#16, 0xF000#16⟩, ⟨0x2000#16, 0xF000#16⟩,
   ⟨0x3000#16, 0xF000#16⟩, ⟨0x4000#16, 0xF000#16⟩, ⟨0x5000#16, 0xF00F#16⟩, ⟨0x6000#16, 0xF000#16⟩] ++
  [⟨0x7000#16, 0xF000#16⟩, ⟨0x8000#16, 0xF00F#16⟩, ⟨0x8001#16, 0xF00F#16⟩, ⟨0x8002#16, 0xF00F#16⟩,
   ⟨0x8003#16, 0xF00F#16⟩, ⟨0x8004#16, 0xF00F#16⟩, ⟨0x8005#16, 0xF00F#16⟩, ⟨0x8006#16, 0xF00F#16⟩] ++
  [⟨0x8007#16, 0xF00F#16⟩, ⟨0x9000#16, 0xF00F#16⟩, ⟨0xA000#16, 0xF000#16⟩, ⟨0xB000#16, 0xF000#16⟩,
   ⟨0xC000#16, 0xF000#16⟩, ⟨0xD000#16, 0xF000#16⟩, ⟨0xE000#16, 0xF000#16⟩, ⟨0xF000#16, 0xF000#16⟩]

end Sys2Proof
end

