-- ==== Sys2Proof/Config.lean ====
section
/-! DEFINITION. What the hardware fixes (R8), the parameters a claim quantifies over (R9, 92_eei_decisions.md) and the one free value, the random byte (R161). -/

namespace Sys2Proof

/-- `RAM_SIZE` (R8): the number of RAM addresses. -/
abbrev ramSize : Nat := 4096

/-- `PROGRAM_BASE` (R8, R51, R251): where a load starts and where `pc` starts after reset. -/
abbrev programBase : Nat := 0x200

/-- The most bytes a load may bring: from `PROGRAM_BASE` to the last RAM address (R51, R228). -/
abbrev maxLoad : Nat := 3584

/-- `FB_WIDTH` (R8): columns of the framebuffer. -/
abbrev fbWidth : Nat := 64

/-- `FB_HEIGHT` (R8): rows of the framebuffer. -/
abbrev fbHeight : Nat := 32

/-- `TIMER_RESET` (R8, R31): the reset value of both timers. -/
abbrev timerReset : Byte := 255#8

/-- `EF_POLICY` (R9, R193): what a word of the reserved classes E and F does. -/
inductive EfPolicy where
  /-- the observed behaviour and the default: nothing but the advance of `pc` -/
  | noop
  /-- fail loud: `UnimplementedOpcode` -/
  | fault
  deriving DecidableEq, Repr

/-- `TIMER_MODE` (R9, R220, R221): whether the host has the operation `timer_tick`. -/
inductive TimerMode where
  /-- the observed behaviour and the default: the timers never change -/
  | hold
  /-- the extension: the host may decrement the timers between cycles -/
  | tick
  deriving DecidableEq, Repr

/-- The parameters that R9 asks a model to take as arguments.
DESIGN CHOICE (notes/assumptions/1.md): `State` carries them in one field that nothing changes, so a statement about every state is a statement about every choice of them. -/
structure Config where
  /-- `STACK_DEPTH`: how many return addresses the stack holds -/
  stackDepth : Nat
  /-- `EF_POLICY` -/
  efPolicy : EfPolicy
  /-- `TIMER_MODE` -/
  timerMode : TimerMode
  deriving DecidableEq, Repr

/-- The defaults of R9: depth 16, classes E and F do nothing, timers hold. -/
def Config.standard : Config :=
  { stackDepth := 16, efPolicy := .noop, timerMode := .hold }

/-- `STACK_DEPTH` is any value of at least 1 (R9); the other parameters admit every value of their type. -/
abbrev Config.legal (c : Config) : Prop := 1 ≤ c.stackDepth

/-- The free value of `CXNN` (R161): the byte of the `n`-th draw that no one has supplied as an argument of the step, under no law.
It has no body, so nothing can be proved of any draw (notes/assumptions/2.md). -/
opaque Config.randomByte : Nat → Byte

end Sys2Proof
end

