-- ==== Sys2Proof/Machine/State.lean ====
section
/-! DEFINITION. The state of the core (10_state.md), the causes a fault records (R201), how a step can end, and the state right after reset (R37). -/

namespace Sys2Proof.Machine

/-- The cause of a fault, and the result of a step (R110, R201). `ok` is no fault.
The enumeration stands for the 3-bit field `FAULT_CAUSE`; its numbers are `faultCode`. -/
inductive FaultCause where
  /-- 0: no fault -/
  | ok
  /-- 1: raised by decode on a word that matches no row of R76 -/
  | invalidOpcode
  /-- 2: raised on `8XY6`, and on classes E and F when `EF_POLICY = fault` -/
  | unimplementedOpcode
  /-- 3: raised by `00EE` on an empty stack -/
  | stackUnderflow
  /-- 4: raised by `2NNN` on a full stack -/
  | stackOverflow
  /-- 5: raised by the fetch when `pc` is 4095 or more -/
  | fetchOutOfRange
  /-- 6: raised by `DXYN` when a sprite row lies above address 4095 -/
  | spriteReadOutOfRange
  /-- 7: raised by `DXYN` when a set sprite bit lies outside the grid -/
  | framebufferOutOfRange
  deriving DecidableEq, Repr

/-- How a step can end without a next state. A fault that the core RAISES is not here: raising it is a transition to the halted state (R204). -/
inductive Fault where
  /-- Raised by `step` alone, on a core that is already halted: nothing is executed, no state changes, and the recorded cause is reported again (R106, R205).
  Safe: the spec calls this a stuck state that is never final (notes/assumptions/3.md). -/
  | halted (cause : FaultCause)
  deriving DecidableEq, Repr

/-- Why an instruction could have no meaning. -/
inductive Refusal where
  /-- An instruction whose meaning is not written yet, by the table's mnemonic. Safe. No arm of `exec` answers so. -/
  | notModelled (mnemonic : String)
  deriving DecidableEq, Repr

/-- RAM as the bytes that differ from the reset contents, by rising address (R30, R50; the canonical form is `Memory.wf`). -/
abbrev Memory := List Host.Cell

/-- The coordinate pair of a framebuffer cell (R32, R58). -/
structure FbCell where
  /-- column, left to right, 0 to 63 -/
  x : Fin 64
  /-- row, top to bottom, 0 to 31 -/
  y : Fin 32
  deriving DecidableEq, Repr

/-- The 64 by 32 grid of cells, as 32 rows of 64, each cell lit or not (R32). -/
abbrev Framebuffer := Vector (Vector Bool 64) 32

/-- Everything the spec gives the core (10_state.md), and three fields of the model's own: `config`, `suppliedDraw` and `draws`. -/
structure State where
  /-- `V0..VF` (R20) -/
  v : Vector Byte 16
  /-- the program counter (R23) -/
  pc : Word
  /-- the index register `I` (R25) -/
  i : Word
  /-- the return stack, newest entry first (R27); `sp` is its length -/
  stack : List Word
  /-- the delay timer `DT` (R31) -/
  dt : Byte
  /-- the sound timer `ST` (R31) -/
  st : Byte
  /-- RAM (R30) -/
  ram : Memory
  /-- the framebuffer `FB` (R32) -/
  fb : Framebuffer
  /-- `HALTED` (R34) -/
  halted : Bool
  /-- `FAULT_CAUSE` (R34, R201) -/
  faultCause : FaultCause
  /-- `FAULT_OPCODE` (R34, R202) -/
  faultOpcode : Word
  /-- `FAULT_PC` (R34, R202) -/
  faultPc : Word
  /-- the model's own: the parameters of R9, which nothing changes (notes/assumptions/1.md) -/
  config : Config
  /-- the model's own: the draw `r` that is an argument of the step (R105, R161), supplied for the next `CXNN`; none when the next draw comes from the free stream `Config.randomByte` (notes/assumptions/2.md) -/
  suppliedDraw : Option Byte
  /-- the model's own: how many draws `CXNN` has taken from the free stream (notes/assumptions/2.md) -/
  draws : Nat
  deriving DecidableEq, Repr

/-- `sp`, the number of entries on the stack (R27). -/
abbrev State.sp (s : State) : Nat := s.stack.length

/-- The state right after reset with the default parameters: the table of R37.
`config`, `suppliedDraw` and `draws` are the model's own fields (notes/assumptions/1.md, notes/assumptions/2.md). -/
def State.reset : State :=
  { v := Vector.replicate 16 0#8
    pc := 0x200#16
    i := 0x000#16
    stack := []
    dt := timerReset
    st := timerReset
    ram := []
    fb := Vector.replicate 32 (Vector.replicate 64 false)
    halted := false
    faultCause := .ok
    faultOpcode := 0x0000#16
    faultPc := 0x0000#16
    config := Config.standard
    suppliedDraw := none
    draws := 0 }

end Sys2Proof.Machine
end

