-- ==== Sys2Proof/Machine/Ops.lean ====
section
/-! DEFINITION. The named operations over memory, registers, stack and framebuffer; fetching; taking a fault; reset, the one way out of it. -/

namespace Sys2Proof.Machine

/-! ### RAM (R30, R50, R54) -/

/-- What a RAM address that the list does not name reads as: reset zeroes every byte (R30, R37). -/
abbrev unlistedByte : Byte := 0x00#8

/-- The canonical form: addresses strictly rising, all of them RAM addresses, no byte that an unlisted address would read as. -/
abbrev Memory.wf (m : Memory) : Prop :=
  m.Pairwise (fun c d => c.1 < d.1) ∧ ∀ c ∈ m, c.1 < ramSize ∧ c.2 ≠ unlistedByte

/-- The byte held at an address. -/
def Memory.byteAt : Memory → Nat → Byte
  | [], _ => unlistedByte
  | (a, b) :: rest, addr => if a = addr then b else Memory.byteAt rest addr

/-- `MemRead(addr, 1)`: defined exactly for 0 to 4095, never reduced modulo 4096 (R50). -/
def Memory.read (m : Memory) (addr : Nat) : Option Byte :=
  if addr < ramSize then some (m.byteAt addr) else none

/-- A write that keeps the canonical form: the reset byte is held by listing nothing. -/
def Memory.write : Memory → Nat → Byte → Memory
  | [], addr, b => if b = unlistedByte then [] else [(addr, b)]
  | (a, c) :: rest, addr, b =>
    if addr < a then
      if b = unlistedByte then (a, c) :: rest else (addr, b) :: (a, c) :: rest
    else if addr = a then
      if b = unlistedByte then rest else (addr, b) :: rest
    else (a, c) :: Memory.write rest addr b

/-- Bytes copied to consecutive addresses from `addr` on (R228). -/
def Memory.writeAll : Memory → Nat → List Byte → Memory
  | m, _, [] => m
  | m, addr, b :: bs => Memory.writeAll (m.write addr b) (addr + 1) bs

/-! ### One update for each piece of state -/

/-- `pc <- t` (R12). -/
def State.setPc (s : State) (t : Word) : State := { s with pc := t }

/-- `V[x] <- b` (R12): every register, `V0` and `VF` too, holds what was last written (R20). -/
def State.setV (s : State) (x : RegIdx) (b : Byte) : State := { s with v := s.v.set x.val b x.isLt }

/-- `I <- w` (R25). -/
def State.setI (s : State) (w : Word) : State := { s with i := w }

/-- The stack replaced. -/
def State.setStack (s : State) (st : List Word) : State := { s with stack := st }

/-- The framebuffer replaced. -/
def State.setFb (s : State) (fb : Framebuffer) : State := { s with fb := fb }

/-- RAM replaced. -/
def State.setRam (s : State) (m : Memory) : State := { s with ram := m }

/-- Both timers replaced. -/
def State.setTimers (s : State) (dt st : Byte) : State := { s with dt := dt, st := st }

/-- The draw of the step replaced (R105, R161). -/
def State.supplyDraw (s : State) (r : Option Byte) : State := { s with suppliedDraw := r }

/-- The next draw consumed: the supplied one, or one more of the free stream (R161). -/
def State.consumeDraw (s : State) : State :=
  { s with suppliedDraw := none, draws := if s.suppliedDraw.isSome then s.draws else s.draws + 1 }

/-! ### Stack (R27 to R29) -/

/-- `Push(v)`: none on a full stack (R28). -/
def push (w : Word) (s : State) : Option State :=
  if s.sp = s.config.stackDepth then none else some (s.setStack (w :: s.stack))

/-- `Pop()`: the top entry and the state without it; none on an empty stack (R29). -/
def pop (s : State) : Option (Word × State) :=
  match s.stack with
  | [] => none
  | w :: rest => some (w, s.setStack rest)

/-! ### Framebuffer (R170 to R172) -/

/-- `FbIsLit(x, y)` (R171). -/
def Framebuffer.isLit (fb : Framebuffer) (c : FbCell) : Bool := (fb[c.y])[c.x]

/-- `FbToggle(x, y)` (R170). -/
def Framebuffer.toggle (fb : Framebuffer) (c : FbCell) : Framebuffer :=
  fb.set c.y.val ((fb[c.y]).set c.x.val (!fb.isLit c) c.x.isLt) c.y.isLt

/-- `FbClear()`: the grid with every cell unlit (R172). -/
def Framebuffer.cleared : Framebuffer := Vector.replicate 32 (Vector.replicate 64 false)

/-- The cell at plain coordinates, none outside the grid (R32, R170). -/
def fbCell? (x y : Nat) : Option FbCell :=
  if h : x < fbWidth ∧ y < fbHeight then some { x := ⟨x, h.1⟩, y := ⟨y, h.2⟩ } else none

/-! ### Fetch and advance (R100 to R102) -/

/-- The word at `pc` and `pc + 1`, high byte first, whatever the parity of `pc`; none when one of the two is no RAM address (R52, R53, R100, R101). -/
def fetch (s : State) : Option Word :=
  match s.ram.read s.pc.toNat, s.ram.read (s.pc.toNat + 1) with
  | some b0, some b1 => some (wordOfBytes b0 b1)
  | _, _ => none

/-- `pc <- trunc_16(pc + 2)` (R102); a skip adds the same again (R130). -/
def advancePc (s : State) : State := s.setPc (s.pc + 2)

/-! ### Taking a fault (R204), and the way out of it (R207) -/

/-- The code of a cause in the 3-bit field `FAULT_CAUSE` (R201). -/
def faultCode : FaultCause → BitVec 3
  | .ok => 0
  | .invalidOpcode => 1
  | .unimplementedOpcode => 2
  | .stackUnderflow => 3
  | .stackOverflow => 4
  | .fetchOutOfRange => 5
  | .spriteReadOutOfRange => 6
  | .framebufferOutOfRange => 7

/-- Fault entry: the four status fields in one action and nothing else; `pc` is not redirected and nothing is saved anywhere (R204). -/
def enterFault (cause : FaultCause) (faultPc faultOpcode : Word) (s : State) : State :=
  { s with halted := true, faultCause := cause, faultOpcode := faultOpcode, faultPc := faultPc }

/-- `raise <Fault>` inside the execution of `i`: `pc` is already the fetch address plus 2 (R102), so the fetch address recorded is `pc - 2`, and the opcode recorded is the word of `i` (R202; notes/assumptions/4.md).
The instruction has written nothing (R107). -/
def raiseFault (cause : FaultCause) (i : Instr) (s : State) : Host.Outcome State Fault Refusal :=
  .next (enterFault cause (s.pc - 2) (encode i) s)

/-- `reset()` applied to any state: everything at its reset value, the only exit from the halted state (R207, R250).
There is no return from a fault and no trap-return instruction. The parameters and the environment's draws are not the core's to reset (notes/assumptions/8.md). -/
def resetCore (s : State) : State :=
  { State.reset with config := s.config, suppliedDraw := s.suppliedDraw, draws := s.draws }

end Sys2Proof.Machine
end

