-- ==== Sys2Proof/Machine/Operands.lean ====
section
/-! DEFINITION. The operand forms (R73, R74): a register by its index, the immediates, the random byte, and the sprite that `DXYN` addresses through `V[X]`, `V[Y]` and `I`. -/

namespace Sys2Proof.Machine

/-- `V[x]` (R20, R74): all 16 indices are legal and none is hard-wired. -/
def readReg (s : State) (x : RegIdx) : Byte := s.v[x]

/-- `zext_16(NNN)` (R73): an immediate address, neither sign-extended nor scaled. -/
def addressOperand (nnn : Addr12) : Word := nnn.setWidth 16

/-- `zext_16(V[0]) + zext_16(NNN)`, not reduced to 12 bits (R123). -/
def offsetAddress (s : State) (nnn : Addr12) : Word := (readReg s v0).setWidth 16 + addressOperand nnn

/-- `RandomByte()`: the fresh draw of this execution (R161): the `r` the step was given, else the next of the free stream (notes/assumptions/2.md). -/
def nextDraw (s : State) : Byte := s.suppliedDraw.getD (Config.randomByte s.draws)

/-- The origin column of `DXYN`: `V[X] mod 64` (R175). -/
def originX (s : State) (x : RegIdx) : Nat := (readReg s x).toNat % 64

/-- The origin row of `DXYN`: `V[Y] mod 64 mod 32`, as the source writes it (R175, 90_conflicts.md C10). -/
def originY (s : State) (y : RegIdx) : Nat := (readReg s y).toNat % 64 % 32

/-- The address of a sprite row, a plain integer sum (R25, R55). -/
def spriteRowAddress (s : State) (row : Nat) : Nat := s.i.toNat + row

/-- The pixel at column offset `j` of a row byte: bit `7 - j`, so bit 7 is leftmost (R173). -/
def spritePixel (b : Byte) (j : Nat) : Bool := b.getLsbD (7 - j)

/-- Phase 1 of `DXYN` on one row (R175, R178): the cells under the set bits at the column offsets `js`, or the first that lies outside the grid. A 0 bit makes no access. -/
def scanRow (b : Byte) (ox y : Nat) : List Nat → Except FaultCause (List FbCell)
  | [] => .ok []
  | j :: js =>
    if spritePixel b j then
      match fbCell? (ox + j) y, scanRow b ox y js with
      | none, _ => .error .framebufferOutOfRange
      | some _, .error e => .error e
      | some c, .ok cs => .ok (c :: cs)
    else scanRow b ox y js

/-- Phase 1 of `DXYN` over the rows given, in scan order: each row's RAM read, then its bits (R175, R178). -/
def scanRows (s : State) (ox oy : Nat) : List Nat → Except FaultCause (List FbCell)
  | [] => .ok []
  | row :: rows =>
    match s.ram.read (spriteRowAddress s row) with
    | none => .error .spriteReadOutOfRange
    | some b =>
      match scanRow b ox (oy + row) (List.range 8), scanRows s ox oy rows with
      | .error e, _ => .error e
      | .ok _, .error e => .error e
      | .ok cs, .ok ds => .ok (cs ++ ds)

/-- Phase 1 of `DXYN`: every access checked before any write; the cells to toggle, in order, or the first failure (R178). -/
def scanSprite (s : State) (x y : RegIdx) (n : Nat) : Except FaultCause (List FbCell) :=
  scanRows s (originX s x) (originY s y) (List.range n)

end Sys2Proof.Machine
end

