-- ==== Sys2Proof/Machine/Flags.lean ====
section
/-! DEFINITION. The flag computations (R22): the carry of `8XY4`, the strict comparison of `8XY5` and `8XY7`, the collision of `DXYN`, and the order in which result and flag are written (R149). -/

namespace Sys2Proof.Machine

/-- A flag is the byte 1 or 0 (R22). -/
def flagByte (b : Bool) : Byte := if b then 1#8 else 0#8

/-- The carry of `8XY4`: the sum exceeds 255 (R147). -/
def carryFlag (a b : Byte) : Bool := decide (a.toNat + b.toNat > 255)

/-- The flag of the subtractions: strictly greater, as unsigned values, so 0 when equal (R148, R151, R153). -/
def greaterFlag (a b : Byte) : Bool := decide (a.toNat > b.toNat)

/-- The result to `V[X]`, then the flag to `VF`, last (R149): with `X = F` the flag remains. -/
def writeResultThenFlag (s : State) (x : RegIdx) (result : Byte) (flag : Bool) : State :=
  (s.setV x result).setV vF (flagByte flag)

/-- Phase 2 of `DXYN` (R175, R177): the grid after toggling the cells in order, and whether some cell was lit just before its toggle. -/
def toggleAll : List FbCell → Framebuffer → Framebuffer × Bool
  | [], fb => (fb, false)
  | c :: cs, fb =>
    let after := toggleAll cs (fb.toggle c)
    (after.1, fb.isLit c || after.2)

end Sys2Proof.Machine
end

