-- ==== Sys2Proof/Machine/Alu.lean ====
section
/-! DEFINITION. Register load and ALU (43_alu.md). All values are unsigned bytes and sums and differences wrap modulo 256 (R140), which is how `+` and `-` act on `Byte`. -/

namespace Sys2Proof.Machine

/-- `6XNN` LD Vx, nn (R141). -/
def execLdImm (x : RegIdx) (nn : Byte) (s : State) : Host.Outcome State Fault Refusal :=
  .next (s.setV x nn)

/-- `7XNN` ADD Vx, nn (R142): no flag. -/
def execAddImm (x : RegIdx) (nn : Byte) (s : State) : Host.Outcome State Fault Refusal :=
  .next (s.setV x (readReg s x + nn))

/-- `8XY0` LD Vx, Vy (R143). -/
def execLdReg (x y : RegIdx) (s : State) : Host.Outcome State Fault Refusal :=
  .next (s.setV x (readReg s y))

/-- `8XY1` OR (R144): no flag. -/
def execOrReg (x y : RegIdx) (s : State) : Host.Outcome State Fault Refusal :=
  .next (s.setV x (readReg s x ||| readReg s y))

/-- `8XY2` AND (R145): no flag. -/
def execAndReg (x y : RegIdx) (s : State) : Host.Outcome State Fault Refusal :=
  .next (s.setV x (readReg s x &&& readReg s y))

/-- `8XY3` XOR (R146): no flag. -/
def execXorReg (x y : RegIdx) (s : State) : Host.Outcome State Fault Refusal :=
  .next (s.setV x (readReg s x ^^^ readReg s y))

/-- `8XY4` ADD Vx, Vy (R147): both operands are read before any write. -/
def execAddReg (x y : RegIdx) (s : State) : Host.Outcome State Fault Refusal :=
  let a := readReg s x
  let b := readReg s y
  .next (writeResultThenFlag s x (a + b) (carryFlag a b))

/-- `8XY5` SUB (R148): `V[X] - V[Y]`. -/
def execSubReg (x y : RegIdx) (s : State) : Host.Outcome State Fault Refusal :=
  let a := readReg s x
  let b := readReg s y
  .next (writeResultThenFlag s x (a - b) (greaterFlag a b))

/-- `8XY6` SHR (R150): its whole effect is the fault `UnimplementedOpcode`; no register is read or written. -/
def execShrReg (x y : RegIdx) (s : State) : Host.Outcome State Fault Refusal :=
  raiseFault .unimplementedOpcode (.shrReg x y) s

/-- `8XY7` SUBN (R151): `V[Y] - V[X]`. -/
def execSubnReg (x y : RegIdx) (s : State) : Host.Outcome State Fault Refusal :=
  let a := readReg s x
  let b := readReg s y
  .next (writeResultThenFlag s x (b - a) (greaterFlag b a))

end Sys2Proof.Machine
end

