-- ==== Sys2Proof/Machine/Control.lean ====
section
/-! DEFINITION. Control transfer (41_control_flow.md). `exec` runs an instruction on the state in which `pc` is already the fetch address plus 2 (R102). -/

namespace Sys2Proof.Machine

/-- `00EE` RET (R120). -/
def execRet (s : State) : Host.Outcome State Fault Refusal :=
  match pop s with
  | none => raiseFault .stackUnderflow .ret s
  | some (w, s') => .next (s'.setPc w)

/-- `1NNN` JP (R121). -/
def execJp (nnn : Addr12) (s : State) : Host.Outcome State Fault Refusal :=
  .next (s.setPc (addressOperand nnn))

/-- `2NNN` CALL (R122): pushes the advanced `pc`. -/
def execCall (nnn : Addr12) (s : State) : Host.Outcome State Fault Refusal :=
  match push s.pc s with
  | none => raiseFault .stackOverflow (.call nnn) s
  | some s' => .next (s'.setPc (addressOperand nnn))

/-- `BNNN` JP V0 (R123). -/
def execJpV0 (nnn : Addr12) (s : State) : Host.Outcome State Fault Refusal :=
  .next (s.setPc (offsetAddress s nnn))

end Sys2Proof.Machine
end

