-- ==== Sys2Proof/Machine/Display.lean ====
section
/-! DEFINITION. The display instructions (45_display.md). -/

namespace Sys2Proof.Machine

/-- `00E0` CLS (R174): `VF` is not written. -/
def execCls (s : State) : Host.Outcome State Fault Refusal :=
  .next (s.setFb Framebuffer.cleared)

/-- `DXYN` DRW (R175): operands and every check first; then the toggles and, last, the collision flag (R176, R177). A failed check leaves everything as it was (R107, R178). -/
def execDrw (x y : RegIdx) (n : Nat) (s : State) : Host.Outcome State Fault Refusal :=
  match scanSprite s x y n with
  | .error cause => raiseFault cause (.drw x y n) s
  | .ok cells =>
    let drawn := toggleAll cells s.fb
    .next ((s.setFb drawn.1).setV vF (flagByte drawn.2))

end Sys2Proof.Machine
end

