-- ==== Sys2Proof/Machine/IndexRandom.lean ====
section
/-! DEFINITION. The index load and the random byte (44_index_random.md). -/

namespace Sys2Proof.Machine

/-- `ANNN` LD I, nnn (R160). -/
def execLdI (nnn : Addr12) (s : State) : Host.Outcome State Fault Refusal :=
  .next (s.setI (addressOperand nnn))

/-- The effect of `CXNN` when the draw is `r`: `V[X] <- r and NN` (R162). -/
def randomUnderMask (r : Byte) (x : RegIdx) (nn : Byte) (s : State) : State := s.setV x (r &&& nn)

/-- `CXNN` RND (R161, R162): one fresh draw is consumed, and the old `V[X]` is not used. -/
def execRnd (x : RegIdx) (nn : Byte) (s : State) : Host.Outcome State Fault Refusal :=
  .next (randomUnderMask (nextDraw s) x nn s.consumeDraw)

end Sys2Proof.Machine
end

