-- ==== Sys2Proof/Machine/Reserved.lean ====
section
/-! DEFINITION. The reserved classes E and F (46_reserved_classes.md). -/

namespace Sys2Proof.Machine

/-- A reserved word under the policy of the configuration: nothing, or `UnimplementedOpcode` (R190, R191, R193). -/
def reservedWord (i : Instr) (s : State) : Host.Outcome State Fault Refusal :=
  match s.config.efPolicy with
  | .noop => .next s
  | .fault => raiseFault .unimplementedOpcode i s

/-- `EX__` RSVE (R190, R193): the bits 11 to 0 take part in nothing. -/
def execRsve (bits : Addr12) (s : State) : Host.Outcome State Fault Refusal :=
  reservedWord (.rsve bits) s

/-- `FX__` RSVF (R191, R193): the bits 11 to 0 take part in nothing. -/
def execRsvf (bits : Addr12) (s : State) : Host.Outcome State Fault Refusal :=
  reservedWord (.rsvf bits) s

end Sys2Proof.Machine
end

