-- ==== Sys2Proof/Machine/Skip.lean ====
section
/-! DEFINITION. Conditional skips (42_skip.md): the skipped bytes are neither fetched nor decoded (R130). -/

namespace Sys2Proof.Machine

/-- The skip mechanism: a further 2 on `pc` when the condition holds, nothing else (R130). -/
def skipIf (cond : Bool) (s : State) : State := if cond then advancePc s else s

/-- `3XNN` SE Vx, nn (R131). -/
def execSeImm (x : RegIdx) (nn : Byte) (s : State) : Host.Outcome State Fault Refusal :=
  .next (skipIf (readReg s x == nn) s)

/-- `4XNN` SNE Vx, nn (R132). -/
def execSneImm (x : RegIdx) (nn : Byte) (s : State) : Host.Outcome State Fault Refusal :=
  .next (skipIf (readReg s x != nn) s)

/-- `5XY0` SE Vx, Vy (R133). -/
def execSeReg (x y : RegIdx) (s : State) : Host.Outcome State Fault Refusal :=
  .next (skipIf (readReg s x == readReg s y) s)

/-- `9XY0` SNE Vx, Vy (R134). -/
def execSneReg (x y : RegIdx) (s : State) : Host.Outcome State Fault Refusal :=
  .next (skipIf (readReg s x != readReg s y) s)

end Sys2Proof.Machine
end

