-- ==== Sys2Proof/Machine/Cycle.lean ====
section
/-! DEFINITION. The fetch-decode-execute cycle (40_cycle.md), in the order of checks of R108. -/

namespace Sys2Proof.Machine

/-- Advance, decode and execute a fetched word (R102 to R104): an invalid word raises `InvalidOpcode` after the advance (R192). -/
def runWord (op : Word) (s : State) : Host.Outcome State Fault Refusal :=
  match decode op with
  | .error _ => .next (enterFault .invalidOpcode s.pc op (advancePc s))
  | .ok i => exec i (advancePc s)

/-- One cycle (R105): nothing on a halted core (R106), a fetch fault without advance (R101), else the word at `pc`. -/
def cycle (s : State) : Host.Outcome State Fault Refusal :=
  if s.halted then .fault (.halted s.faultCause)
  else
    match fetch s with
    | none => .next (enterFault .fetchOutOfRange s.pc 0x0000#16 s)
    | some op => runWord op s

/-- `word` stored, high byte first, where the next fetch looks: at `pc` (R52), or at `PROGRAM_BASE` with `pc` moved there when `pc` cannot be fetched from. A halted core is taken out of the halt, or it would fetch nothing (notes/assumptions/7.md). -/
def placeWord (word : Word) (s : State) : State :=
  let pc := if s.pc.toNat + 1 < ramSize then s.pc else 0x200#16
  { s with
    pc := pc
    halted := false
    ram := (s.ram.write pc.toNat (highByte word)).write (pc.toNat + 1) (lowByte word) }

end Sys2Proof.Machine
end

