-- ==== Sys2Proof/Machine/Step.lean ====
section
/-! DEFINITION. One step of the core is one cycle (R3, R105), and how an instruction is put where the next step fetches. -/

namespace Sys2Proof.Machine

/-- One fetch-decode-execute cycle (R105). -/
def step (s : State) : Host.Outcome State Fault Refusal := cycle s

/-- `s` with the instruction word `w` where the next step fetches it; nothing else changes that the fetch does not need. -/
def State.withFetchWord (s : State) (nbits w : Nat) : State := placeWord (tableWord nbits w) s

end Sys2Proof.Machine
end

