-- ==== Sys2Proof/Machine/HostOps.lean ====
section
/-! DEFINITION. What the host can do to the core: the whole operations of R226, each between two cycles (R62). -/

namespace Sys2Proof.Machine

/-- The result of `load` (R228). -/
inductive LoadResult where
  | ok
  /-- the bytes would pass address 4095; a result of the operation, no fault of the core -/
  | loadOverflow
  deriving DecidableEq, Repr

/-- `load(bytes)`: verbatim from `PROGRAM_BASE` on, nothing else changed; refused whole above 3584 bytes (R228). -/
def load (bytes : List Byte) (s : State) : State × LoadResult :=
  if bytes.length ≤ maxLoad then (s.setRam (s.ram.writeAll programBase bytes), .ok)
  else (s, .loadOverflow)

/-- One step with its draw as an argument: the function of the state `s` and the byte `r` of R105.
`r` stands for `RandomByte()` in this step alone; a step that executes no `CXNN` ignores it (R161, notes/assumptions/2.md). -/
def stepWithDraw (r : Byte) (s : State) : Host.Outcome State Fault Refusal :=
  match step (s.supplyDraw (some r)) with
  | .next t => .next (t.supplyDraw s.suppliedDraw)
  | .fault f => .fault f
  | .refused q => .refused q

/-- `step()` as the host sees it, on the draw `r`: the next state and the result, `ok` or a cause; on a halted core the same state and the recorded cause (R105, R106, R110, R227).
Answers none only for a refused instruction, of which there is none. -/
def stepOp (r : Byte) (s : State) : Option (State × FaultCause) :=
  match stepWithDraw r s with
  | .next t => some (t, if t.halted then t.faultCause else .ok)
  | .fault (.halted cause) => some (s, cause)
  | .refused _ => none

/-- `framebuffer_snapshot()`: element `k` is `FB[k mod 64, k div 64]` (R33, R229). -/
def framebufferSnapshot (s : State) : Vector Bool 2048 :=
  Vector.ofFn fun k => s.fb.isLit
    { x := ⟨k.val % 64, Nat.mod_lt _ (by decide)⟩, y := ⟨k.val / 64, Nat.div_lt_of_lt_mul k.isLt⟩ }

/-- `clear_display()`: every cell unlit, nothing else (R230). -/
def clearDisplay (s : State) : State := s.setFb Framebuffer.cleared

/-- What `read_state()` returns of the registers and the status fields (R231). -/
structure StateView where
  v : Vector Byte 16
  pc : Word
  i : Word
  sp : Nat
  /-- the entries below `sp`, `stack[0]` first -/
  stack : List Word
  dt : Byte
  st : Byte
  halted : Bool
  faultCause : BitVec 3
  faultOpcode : Word
  faultPc : Word
  deriving DecidableEq, Repr

/-- `read_state()` (R231). -/
def readState (s : State) : StateView :=
  { v := s.v, pc := s.pc, i := s.i, sp := s.sp, stack := s.stack.reverse, dt := s.dt, st := s.st,
    halted := s.halted, faultCause := faultCode s.faultCause, faultOpcode := s.faultOpcode,
    faultPc := s.faultPc }

/-- One timer's tick: down by 1 above 0, and 0 stays 0 (R221). -/
def tickTimer (b : Byte) : Byte := if b = 0#8 then 0#8 else b - 1#8

/-- `timer_tick()`: exists only when `TIMER_MODE = tick` (R221, R232). -/
def timerTick (s : State) : Option State :=
  match s.config.timerMode with
  | .hold => none
  | .tick => some (s.setTimers (tickTimer s.dt) (tickTimer s.st))

/-- The operations of R226. -/
inductive HostOp where
  | reset
  | load (bytes : List Byte)
  /-- `step()`, with the one fresh draw available to it (R227) -/
  | step (draw : Byte)
  | framebufferSnapshot
  | clearDisplay
  /-- `read_state()`, with the address of the RAM byte it is asked for, if any (R231) -/
  | readState (ramAddress : Option Nat)
  | timerTick
  deriving DecidableEq, Repr

/-- What an operation returns to the host (R226). -/
inductive HostResult where
  | none
  | loaded (r : LoadResult)
  | stepped (r : FaultCause)
  | cells (fb : Vector Bool 2048)
  | view (v : StateView) (ramByte : Option Byte)
  deriving DecidableEq, Repr

/-- One host operation (R226): the state after it and its result; none when the operation does not exist (R232).
DESIGN CHOICE (notes/assumptions/17.md): `read_state()` asked for an address above 4095, which R231 does not speak of, returns no RAM byte, as when it is asked for none. -/
def performHostOp (op : HostOp) (s : State) : Option (State × HostResult) :=
  match op with
  | .reset => some (resetCore s, .none)
  | .load bytes => some ((load bytes s).1, .loaded (load bytes s).2)
  | .step draw => (stepOp draw s).map fun p => (p.1, .stepped p.2)
  | .framebufferSnapshot => some (s, .cells (framebufferSnapshot s))
  | .clearDisplay => some (clearDisplay s, .none)
  | .readState ramAddress => some (s, .view (readState s) (ramAddress.bind s.ram.read))
  | .timerTick => (timerTick s).map fun t => (t, .none)

end Sys2Proof.Machine
end

