-- ==== Sys2Proof/Safety.lean ====
section
/-! DEFINITION. The terms in which claims about the core are made: the invariant of R38, reachable states, parked states (R265), the register access table (R21), and what a sprite covers (R175). -/

namespace Sys2Proof

/-- The invariants of R38, with the canonical form of RAM and a legal `STACK_DEPTH` beside them. -/
structure Machine.State.Inv (s : Machine.State) : Prop where
  /-- `0 <= pc <= 0x10FE` -/
  pcInRange : s.pc.toNat ≤ 0x10FE
  /-- `0 <= I <= 0xFFF` -/
  indexInRange : s.i.toNat ≤ 0xFFF
  /-- every stack entry is in 2 to 0x1000 -/
  stackInRange : ∀ w ∈ s.stack, 2 ≤ w.toNat ∧ w.toNat ≤ 0x1000
  /-- `0 <= sp <= STACK_DEPTH` -/
  stackFits : s.sp ≤ s.config.stackDepth
  /-- `ram[a] = 0` for `a < 0x200` -/
  lowRamZero : ∀ a < programBase, s.ram.byteAt a = 0x00#8
  /-- `DT = ST = 255` when `TIMER_MODE = hold` -/
  timersHold : s.config.timerMode = .hold → s.dt = 255#8 ∧ s.st = 255#8
  /-- `HALTED = 0` if and only if `FAULT_CAUSE = 0` -/
  haltedIffCause : s.halted = false ↔ s.faultCause = .ok
  /-- RAM is in its one canonical form (the model's own) -/
  ramCanonical : s.ram.wf
  /-- `STACK_DEPTH >= 1` (R9) -/
  depthLegal : s.config.legal

/-- The states that the operations of the host can lead to (R226, R233), from reset with any legal parameters; each step on any draw (R161, R227). -/
inductive Reachable : Machine.State → Prop where
  | reset (c : Config) : c.legal → Reachable { Machine.State.reset with config := c }
  | operation {s t : Machine.State} (op : Machine.HostOp) (r : Machine.HostResult) :
      Reachable s → Machine.performHostOp op s = some (t, r) → Reachable t

/-- Parked (R265): not halted, and the word at `pc` is `1NNN` with `NNN = pc`. -/
def Parked (s : Machine.State) : Prop :=
  s.halted = false ∧ ∃ nnn : Addr12, Machine.fetch s = some (0x1#4 ++ nnn) ∧ nnn.setWidth 16 = s.pc

/-- The registers whose old value an instruction uses: the column "reads" of R21. -/
def Instr.regReads : Instr → List RegIdx
  | .cls | .ret | .jp _ | .call _ | .ldI _ | .rsve _ | .rsvf _ => []
  | .seImm x _ | .sneImm x _ => [x]
  | .seReg x y | .sneReg x y => [x, y]
  | .ldImm _ _ => []
  | .addImm x _ => [x]
  | .ldReg _ y => [y]
  | .orReg x y | .andReg x y | .xorReg x y => [x, y]
  | .addReg x y | .subReg x y | .subnReg x y => [x, y]
  | .shrReg _ _ => []
  | .jpV0 _ => [v0]
  | .rnd _ _ => []
  | .drw x y _ => [x, y]

/-- The registers an instruction changes: the column "writes" of R21. -/
def Instr.regWrites : Instr → List RegIdx
  | .cls | .ret | .jp _ | .call _ | .ldI _ | .rsve _ | .rsvf _ => []
  | .seImm _ _ | .sneImm _ _ | .seReg _ _ | .sneReg _ _ => []
  | .ldImm x _ | .addImm x _ => [x]
  | .ldReg x _ | .orReg x _ | .andReg x _ | .xorReg x _ => [x]
  | .addReg x _ | .subReg x _ | .subnReg x _ => [x, vF]
  | .shrReg _ _ => []
  | .jpV0 _ => []
  | .rnd x _ => [x]
  | .drw _ _ _ => [vF]

/-- The bit at column offset `j` of sprite row `row` is 1: bit `7 - j` of the RAM byte at `I + row` (R173, R175). -/
def spriteBit (s : Machine.State) (row j : Nat) : Prop :=
  (s.ram.byteAt (s.i.toNat + row)).getLsbD (7 - j) = true

/-- `DXYN` in state `s` has a set sprite bit on the cell `c`: the cell lies at the origin `(V[X] mod 64, V[Y] mod 64 mod 32)` plus the bit's column offset and row (R175). -/
def drawCovers (s : Machine.State) (x y : RegIdx) (n : Nat) (c : Machine.FbCell) : Prop :=
  ∃ row < n, ∃ j < 8, spriteBit s row j ∧
    c.x.val = s.v[x].toNat % 64 + j ∧ c.y.val = s.v[y].toNat % 64 % 32 + row

/-- Sprite row `row` of `DXYN` can be read and its set bits lie inside the grid: no access of it fails (R178). -/
def spriteRowFits (s : Machine.State) (x y : RegIdx) (row : Nat) : Prop :=
  s.i.toNat + row ≤ 4095 ∧
  ∀ j < 8, spriteBit s row j →
    s.v[x].toNat % 64 + j ≤ 63 ∧ s.v[y].toNat % 64 % 32 + row ≤ 31

end Sys2Proof
end

