-- ==== Sys2Proof/Certificates/Slice0/Obligations.lean ====
section
/-! DEFINITION. The statements about the model, one `def Obligations.<Name> : Prop` each, in the order of the spec's files. A statement about `exec` speaks of the state in which `pc` is already the fetch address plus 2 (R102), so the fetch address is `pc - 2` there (notes/assumptions/4.md). A statement about a step of the host is for every draw `r` of that step. -/

open Sys2Proof Sys2Proof.Machine

/-! ### Encoding (30_encoding.md) -/

/-- Every well-formed instruction is decoded from its own word, with every operand at every value its field admits (R71, R72, R76). -/
def Obligations.DecodeOfEncodeIsTheInstruction : Prop :=
  ∀ i : Instr, i.wellFormed = true → decode (encode i) = .ok i

/-- A word that decodes is the word of the instruction it decodes to, so each such word has one meaning and no bit of it is dropped; the instruction is well-formed (R76, R84: bits 11 to 0 of classes E and F included). -/
def Obligations.EncodeOfDecodeIsTheWord : Prop :=
  ∀ (op : Word) (i : Instr), decode op = .ok i → encode i = op ∧ i.wellFormed = true

/-- R76: `op & mask = match` selects the row's instruction with its fields at the bit positions of R71; no two rows overlap; a word that matches no row is invalid and executing it raises `InvalidOpcode`. -/
def Obligations.OpcodeMapRowsSelectTheirInstructions : Prop :=
  (∀ op : Word,
    (op &&& 0xFFFF#16 = 0x00E0#16 → decode op = .ok .cls) ∧
    (op &&& 0xFFFF#16 = 0x00EE#16 → decode op = .ok .ret) ∧
    (op &&& 0xF000#16 = 0x1000#16 → decode op = .ok (.jp (op.extractLsb' 0 12))) ∧
    (op &&& 0xF000#16 = 0x2000#16 → decode op = .ok (.call (op.extractLsb' 0 12))) ∧
    (op &&& 0xF000#16 = 0x3000#16 →
      decode op = .ok (.seImm (regOf (op.extractLsb' 8 4)) (op.extractLsb' 0 8))) ∧
    (op &&& 0xF000#16 = 0x4000#16 →
      decode op = .ok (.sneImm (regOf (op.extractLsb' 8 4)) (op.extractLsb' 0 8))) ∧
    (op &&& 0xF00F#16 = 0x5000#16 →
      decode op = .ok (.seReg (regOf (op.extractLsb' 8 4)) (regOf (op.extractLsb' 4 4)))) ∧
    (op &&& 0xF000#16 = 0x6000#16 →
      decode op = .ok (.ldImm (regOf (op.extractLsb' 8 4)) (op.extractLsb' 0 8))) ∧
    (op &&& 0xF000#16 = 0x7000#16 →
      decode op = .ok (.addImm (regOf (op.extractLsb' 8 4)) (op.extractLsb' 0 8))) ∧
    (op &&& 0xF00F#16 = 0x8000#16 →
      decode op = .ok (.ldReg (regOf (op.extractLsb' 8 4)) (regOf (op.extractLsb' 4 4)))) ∧
    (op &&& 0xF00F#16 = 0x8001#16 →
      decode op = .ok (.orReg (regOf (op.extractLsb' 8 4)) (regOf (op.extractLsb' 4 4)))) ∧
    (op &&& 0xF00F#16 = 0x8002#16 →
      decode op = .ok (.andReg (regOf (op.extractLsb' 8 4)) (regOf (op.extractLsb' 4 4)))) ∧
    (op &&& 0xF00F#16 = 0x8003#16 →
      decode op = .ok (.xorReg (regOf (op.extractLsb' 8 4)) (regOf (op.extractLsb' 4 4)))) ∧
    (op &&& 0xF00F#16 = 0x8004#16 →
      decode op = .ok (.addReg (regOf (op.extractLsb' 8 4)) (regOf (op.extractLsb' 4 4)))) ∧
    (op &&& 0xF00F#16 = 0x8005#16 →
      decode op = .ok (.subReg (regOf (op.extractLsb' 8 4)) (regOf (op.extractLsb' 4 4)))) ∧
    (op &&& 0xF00F#16 = 0x8006#16 →
      decode op = .ok (.shrReg (regOf (op.extractLsb' 8 4)) (regOf (op.extractLsb' 4 4)))) ∧
    (op &&& 0xF00F#16 = 0x8007#16 →
      decode op = .ok (.subnReg (regOf (op.extractLsb' 8 4)) (regOf (op.extractLsb' 4 4)))) ∧
    (op &&& 0xF00F#16 = 0x9000#16 →
      decode op = .ok (.sneReg (regOf (op.extractLsb' 8 4)) (regOf (op.extractLsb' 4 4)))) ∧
    (op &&& 0xF000#16 = 0xA000#16 → decode op = .ok (.ldI (op.extractLsb' 0 12))) ∧
    (op &&& 0xF000#16 = 0xB000#16 → decode op = .ok (.jpV0 (op.extractLsb' 0 12))) ∧
    (op &&& 0xF000#16 = 0xC000#16 →
      decode op = .ok (.rnd (regOf (op.extractLsb' 8 4)) (op.extractLsb' 0 8))) ∧
    (op &&& 0xF000#16 = 0xD000#16 →
      decode op = .ok (.drw (regOf (op.extractLsb' 8 4)) (regOf (op.extractLsb' 4 4))
        (op.extractLsb' 0 4).toNat)) ∧
    (op &&& 0xF000#16 = 0xE000#16 → decode op = .ok (.rsve (op.extractLsb' 0 12))) ∧
    (op &&& 0xF000#16 = 0xF000#16 → decode op = .ok (.rsvf (op.extractLsb' 0 12)))) ∧
  opcodeRows.Pairwise (fun r q => ∀ op : Word, ¬(op &&& r.mask = r.pattern ∧ op &&& q.mask = q.pattern)) ∧
  (∀ op : Word, (∀ r ∈ opcodeRows, op &&& r.mask ≠ r.pattern) →
    (∃ e, decode op = .error e) ∧
    ∀ s : State, s.halted = false → fetch s = some op →
      step s = .next { s with pc := s.pc + 2, halted := true, faultCause := .invalidOpcode,
                              faultOpcode := op, faultPc := s.pc })

/-- R80, R81, R82, class by class: which words are instructions. The exact match of class 0 is the spec's decision D10 and the low nibble of classes 5, 8 and 9 its decision D11. -/
def Obligations.InvalidWordsOfEachClass : Prop :=
  ∀ op : Word,
    (op.extractLsb' 12 4 = 0x0#4 → ((∃ i, decode op = .ok i) ↔ op = 0x00E0#16 ∨ op = 0x00EE#16)) ∧
    (op.extractLsb' 12 4 = 0x5#4 ∨ op.extractLsb' 12 4 = 0x9#4 →
      ((∃ i, decode op = .ok i) ↔ op.extractLsb' 0 4 = 0x0#4)) ∧
    (op.extractLsb' 12 4 = 0x8#4 → ((∃ i, decode op = .ok i) ↔ (op.extractLsb' 0 4).toNat ≤ 7)) ∧
    (op.extractLsb' 12 4 ≠ 0x0#4 → op.extractLsb' 12 4 ≠ 0x5#4 → op.extractLsb' 12 4 ≠ 0x8#4 →
      op.extractLsb' 12 4 ≠ 0x9#4 → ∃ i, decode op = .ok i)

/-- A sanity check: words written out from the rows of R76 decode to the instructions they stand for. -/
def Obligations.SampleWordsDecode : Prop :=
  decode 0x00E0#16 = .ok .cls ∧ decode 0x00EE#16 = .ok .ret ∧
  decode 0x1234#16 = .ok (.jp 0x234#12) ∧ decode 0x332A#16 = .ok (.seImm 3 0x2A#8) ∧
  decode 0x9120#16 = .ok (.sneReg 1 2) ∧ decode 0x8F27#16 = .ok (.subnReg 15 2) ∧
  decode 0xA2F0#16 = .ok (.ldI 0x2F0#12) ∧ decode 0xC30F#16 = .ok (.rnd 3 0x0F#8) ∧
  decode 0xD12F#16 = .ok (.drw 1 2 15) ∧ decode 0xF115#16 = .ok (.rsvf 0x115#12) ∧
  decode 0x812E#16 = .error .class8Nibble ∧ decode 0x01E0#16 = .error .class0Word

/-! ### Memory (20_memory.md) -/

/-- R52: the fetch is big-endian; the byte at the lower address holds `op[15:8]`. It holds for every parity of `pc`. -/
def Obligations.FetchIsBigEndian : Prop :=
  ∀ s : State, s.pc.toNat ≤ 4094 →
    ∃ op, fetch s = some op ∧
      op.toNat = (s.ram.byteAt s.pc.toNat).toNat * 256 + (s.ram.byteAt (s.pc.toNat + 1)).toNat ∧
      op.extractLsb' 8 8 = s.ram.byteAt s.pc.toNat ∧
      op.extractLsb' 0 8 = s.ram.byteAt (s.pc.toNat + 1)

/-- R50: `MemRead(addr, 1)` is defined exactly for 0 to 4095 and returns the byte there; nothing is reduced modulo 4096. A byte written is read back and every other address reads as before. -/
def Obligations.RamReadsWhatWasWritten : Prop :=
  ∀ (m : Memory) (addr k : Nat) (b : Byte), m.wf → addr < 4096 →
    (m.write addr b).wf ∧
    (m.write addr b).read addr = some b ∧
    (k ≠ addr → (m.write addr b).read k = m.read k) ∧
    (4096 ≤ k → m.read k = none) ∧
    (k < 4096 → m.read k = some (m.byteAt k))

/-- The canonical form (the model's own choice, notes/assumptions/6.md): two memories in it that read the same at every address are the same data. -/
def Obligations.EqualReadsMakeEqualMemories : Prop :=
  ∀ m m' : Memory, m.wf → m'.wf → (∀ addr < 4096, m.read addr = m'.read addr) → m = m'

/-- R56: no instruction writes RAM, by `exec` and by `step`; among the host's operations only a load and a reset do, and a load writes nothing below 0x200. -/
def Obligations.NoInstructionWritesRam : Prop :=
  (∀ (i : Instr) (s t : State), exec i s = .next t → ∀ addr, t.ram.read addr = s.ram.read addr) ∧
  (∀ s t : State, step s = .next t → ∀ addr, t.ram.read addr = s.ram.read addr) ∧
  (∀ (op : HostOp) (s t : State) (r : HostResult), performHostOp op s = some (t, r) → op ≠ .reset →
    (∀ bytes, op ≠ .load bytes) → ∀ addr, t.ram.read addr = s.ram.read addr) ∧
  (∀ (bytes : List Byte) (s t : State) (r : HostResult), performHostOp (.load bytes) s = some (t, r) →
    ∀ addr < 0x200, t.ram.read addr = s.ram.read addr)

/-! ### The cycle (40_cycle.md) -/

/-- When the bytes at `pc` decode to `i`, a step of a running core is `exec i` on the state with `pc` advanced by 2 (R100, R102, R103, R104). -/
def Obligations.StepRunsTheDecodedInstruction : Prop :=
  ∀ (s : State) (i : Instr), s.halted = false → s.pc.toNat ≤ 4094 →
    decode (s.ram.byteAt s.pc.toNat ++ s.ram.byteAt (s.pc.toNat + 1)) = .ok i →
    step s = exec i { s with pc := s.pc + 2 }

/-- R105, the function of the state `s` and the draw `r`, case by case, with the result the host gets: a halted core; a fetch beyond RAM; an invalid word; `8XY6`; the reserved classes; `CXNN`, the one case that uses `r`; any other instruction.
What a fault records is the spec's decision D15, the fetch fault D4, the reserved classes D12; that `r` is a supplied draw of `State` and that `8XY6` is an instruction are the model's (notes/assumptions/2.md, notes/assumptions/16.md). -/
def Obligations.StepIsTheWholeCycle : Prop :=
  ∀ (s : State) (r : Byte),
    (s.halted = true → performHostOp (.step r) s = some (s, .stepped s.faultCause)) ∧
    (s.halted = false → 4095 ≤ s.pc.toNat →
      performHostOp (.step r) s =
        some ({ s with halted := true, faultCause := .fetchOutOfRange,
                       faultOpcode := 0x0000#16, faultPc := s.pc }, .stepped .fetchOutOfRange)) ∧
    (∀ op : Word, s.halted = false → s.pc.toNat ≤ 4094 →
      op = s.ram.byteAt s.pc.toNat ++ s.ram.byteAt (s.pc.toNat + 1) →
      (∀ e, decode op = .error e →
        performHostOp (.step r) s =
          some ({ s with pc := s.pc + 2, halted := true, faultCause := .invalidOpcode,
                         faultOpcode := op, faultPc := s.pc }, .stepped .invalidOpcode)) ∧
      (∀ x y, decode op = .ok (.shrReg x y) →
        performHostOp (.step r) s =
          some ({ s with pc := s.pc + 2, halted := true, faultCause := .unimplementedOpcode,
                         faultOpcode := op, faultPc := s.pc }, .stepped .unimplementedOpcode)) ∧
      (∀ bits, decode op = .ok (.rsve bits) ∨ decode op = .ok (.rsvf bits) →
        s.config.efPolicy = .noop →
        performHostOp (.step r) s = some ({ s with pc := s.pc + 2 }, .stepped .ok)) ∧
      (∀ x nn, decode op = .ok (.rnd x nn) →
        ∃ t, performHostOp (.step r) s = some (t, .stepped .ok) ∧ t.v[x] = r &&& nn ∧
          (∀ k : RegIdx, k ≠ x → t.v[k] = s.v[k]) ∧ t = { s with pc := s.pc + 2, v := t.v }) ∧
      (∀ i, decode op = .ok i → (∀ x nn, i ≠ .rnd x nn) →
        ∃ t, exec i { s with pc := s.pc + 2 } = .next t ∧
          (t.halted = false ∧ performHostOp (.step r) s = some (t, .stepped .ok) ∨
           t = { s with pc := s.pc + 2, halted := true, faultCause := t.faultCause,
                        faultOpcode := op, faultPc := s.pc } ∧
            performHostOp (.step r) s = some (t, .stepped t.faultCause))))

/-- R106, R205, R207 (the spec's decisions D15 and D19): a step on a halted core changes nothing and reports the recorded cause; no operation but reset ends the halt or touches the fault fields, the registers, `pc`, `I` or the stack; reset ends it. -/
def Obligations.HaltedCoreIsStuckUntilReset : Prop :=
  ∀ s : State, s.halted = true →
    step s = .fault (.halted s.faultCause) ∧
    (∀ r : Byte, performHostOp (.step r) s = some (s, .stepped s.faultCause)) ∧
    (∃ t, performHostOp .reset s = some (t, .none) ∧ t.halted = false) ∧
    ∀ (op : HostOp) (t : State) (r : HostResult), op ≠ .reset → performHostOp op s = some (t, r) →
      t.halted = true ∧ t.faultCause = s.faultCause ∧ t.faultOpcode = s.faultOpcode ∧
      t.faultPc = s.faultPc ∧ t.v = s.v ∧ t.pc = s.pc ∧ t.i = s.i ∧ t.stack = s.stack

/-- R104, R105: the step is total. Every instruction answers a next state from every state, and every step of a running core does; the host always gets a state and a result, whatever the draw. -/
def Obligations.EveryStepAnswers : Prop :=
  (∀ (i : Instr) (s : State), ∃ t, exec i s = .next t) ∧
  (∀ s : State, s.halted = false → ∃ t, step s = .next t) ∧
  (∀ (s : State) (r : Byte), ∃ t c, performHostOp (.step r) s = some (t, .stepped c))

/-! ### Control transfer (41_control_flow.md) -/

/-- R120: the popped entry becomes `pc`; with an empty stack `StackUnderflow`, and nothing else changes. What the fault records is the spec's R202 and R204 (its decision D15), and that `exec` reads it off the advanced `pc` and the instruction is the model's (notes/assumptions/4.md). -/
def Obligations.RetPopsThePc : Prop :=
  decode 0x00EE#16 = .ok .ret ∧
  (∀ (s : State) (w : Word) (rest : List Word), s.stack = w :: rest →
    exec .ret s = .next { s with pc := w, stack := rest }) ∧
  (∀ s : State, s.stack = [] →
    exec .ret s = .next { s with halted := true, faultCause := .stackUnderflow,
                                 faultOpcode := 0x00EE#16, faultPc := s.pc - 2 })

/-- R121: `pc <- zext_16(NNN)`, unchecked, and nothing else. -/
def Obligations.JpLoadsThePc : Prop :=
  ∀ (nnn : Addr12) (s : State),
    decode (0x1#4 ++ nnn) = .ok (.jp nnn) ∧
    ∃ t, exec (.jp nnn) s = .next t ∧ t.pc.toNat = nnn.toNat ∧ t = { s with pc := t.pc }

/-- R122: the advanced `pc` is pushed and `pc` becomes `NNN`; on a full stack `StackOverflow`, nothing pushed. The bound is the spec's decision D3, what the fault records D15 (R202, R204), read as notes/assumptions/4.md says. -/
def Obligations.CallPushesTheAdvancedPc : Prop :=
  ∀ (nnn : Addr12) (s : State),
    decode (0x2#4 ++ nnn) = .ok (.call nnn) ∧
    (s.sp ≠ s.config.stackDepth →
      ∃ t, exec (.call nnn) s = .next t ∧ t.stack = s.pc :: s.stack ∧ t.pc.toNat = nnn.toNat ∧
        t = { s with pc := t.pc, stack := t.stack }) ∧
    (s.sp = s.config.stackDepth →
      exec (.call nnn) s = .next { s with halted := true, faultCause := .stackOverflow,
                                          faultOpcode := 0x2#4 ++ nnn, faultPc := s.pc - 2 })

/-- R123: `pc <- V[0] + NNN`, always `V0`, not reduced to 12 bits, and nothing else. The width of `pc` is the spec's decision D1. -/
def Obligations.JpV0AddsTheOffset : Prop :=
  ∀ (nnn : Addr12) (s : State),
    decode (0xB#4 ++ nnn) = .ok (.jpV0 nnn) ∧
    ∃ t, exec (.jpV0 nnn) s = .next t ∧ t.pc.toNat = s.v[v0].toNat + nnn.toNat ∧ t = { s with pc := t.pc }

/-- R120 with R122: `2NNN` followed immediately by `00EE` restores `pc` to the instruction after the call, and everything else is as before. The room on the stack is the spec's decision D3. -/
def Obligations.CallThenReturnRoundTrip : Prop :=
  ∀ (s : State) (nnn : Addr12), s.halted = false → s.pc.toNat ≤ 4094 →
    fetch s = some (0x2#4 ++ nnn) → s.sp ≠ s.config.stackDepth → nnn.toNat ≤ 4094 →
    s.ram.byteAt nnn.toNat ++ s.ram.byteAt (nnn.toNat + 1) = 0x00EE#16 →
    ∃ t, step s = .next t ∧ t.pc.toNat = nnn.toNat ∧ step t = .next { s with pc := s.pc + 2 }

/-! ### Skips (42_skip.md) -/

/-- R130 to R134: when the condition holds `pc` goes up by a further 2, else it stays; nothing else changes and no skip faults. -/
def Obligations.SkipsAddTwoOnTheirCondition : Prop :=
  ∀ (x y : RegIdx) (nn : Byte) (s : State),
    decode (0x3#4 ++ nibble x ++ nn) = .ok (.seImm x nn) ∧
    exec (.seImm x nn) s = .next { s with pc := if s.v[x] = nn then s.pc + 2 else s.pc } ∧
    decode (0x4#4 ++ nibble x ++ nn) = .ok (.sneImm x nn) ∧
    exec (.sneImm x nn) s = .next { s with pc := if s.v[x] = nn then s.pc else s.pc + 2 } ∧
    decode (0x5#4 ++ nibble x ++ nibble y ++ 0x0#4) = .ok (.seReg x y) ∧
    exec (.seReg x y) s = .next { s with pc := if s.v[x] = s.v[y] then s.pc + 2 else s.pc } ∧
    decode (0x9#4 ++ nibble x ++ nibble y ++ 0x0#4) = .ok (.sneReg x y) ∧
    exec (.sneReg x y) s = .next { s with pc := if s.v[x] = s.v[y] then s.pc else s.pc + 2 }

/-! ### Register load and ALU (43_alu.md) -/

/-- R141, R143: the immediate, and the copy; no flag, `VF` is an ordinary destination, no other register and no other state changes. -/
def Obligations.LoadsWriteOneRegister : Prop :=
  ∀ (x y : RegIdx) (nn : Byte) (s : State),
    decode (0x6#4 ++ nibble x ++ nn) = .ok (.ldImm x nn) ∧
    (∃ t, exec (.ldImm x nn) s = .next t ∧ t.v[x] = nn ∧
      (∀ k : RegIdx, k ≠ x → t.v[k] = s.v[k]) ∧ t = { s with v := t.v }) ∧
    decode (0x8#4 ++ nibble x ++ nibble y ++ 0x0#4) = .ok (.ldReg x y) ∧
    (∃ t, exec (.ldReg x y) s = .next t ∧ t.v[x] = s.v[y] ∧
      (∀ k : RegIdx, k ≠ x → t.v[k] = s.v[k]) ∧ t = { s with v := t.v })

/-- R142: the sum modulo 256, no flag: `VF` changes only as the destination. -/
def Obligations.AddImmediateWrapsWithoutFlag : Prop :=
  ∀ (x : RegIdx) (nn : Byte) (s : State),
    decode (0x7#4 ++ nibble x ++ nn) = .ok (.addImm x nn) ∧
    ∃ t, exec (.addImm x nn) s = .next t ∧ t.v[x].toNat = (s.v[x].toNat + nn.toNat) % 256 ∧
      (∀ k : RegIdx, k ≠ x → t.v[k] = s.v[k]) ∧ t = { s with v := t.v }

/-- R144, R145, R146: bit by bit, no flag: `VF` changes only as the destination. -/
def Obligations.LogicalOperationsActBitwise : Prop :=
  ∀ (x y : RegIdx) (s : State),
    decode (0x8#4 ++ nibble x ++ nibble y ++ 0x1#4) = .ok (.orReg x y) ∧
    (∃ t, exec (.orReg x y) s = .next t ∧
      (∀ j < 8, t.v[x].getLsbD j = (s.v[x].getLsbD j || s.v[y].getLsbD j)) ∧
      (∀ k : RegIdx, k ≠ x → t.v[k] = s.v[k]) ∧ t = { s with v := t.v }) ∧
    decode (0x8#4 ++ nibble x ++ nibble y ++ 0x2#4) = .ok (.andReg x y) ∧
    (∃ t, exec (.andReg x y) s = .next t ∧
      (∀ j < 8, t.v[x].getLsbD j = (s.v[x].getLsbD j && s.v[y].getLsbD j)) ∧
      (∀ k : RegIdx, k ≠ x → t.v[k] = s.v[k]) ∧ t = { s with v := t.v }) ∧
    decode (0x8#4 ++ nibble x ++ nibble y ++ 0x3#4) = .ok (.xorReg x y) ∧
    (∃ t, exec (.xorReg x y) s = .next t ∧
      (∀ j < 8, t.v[x].getLsbD j = (s.v[x].getLsbD j ^^ s.v[y].getLsbD j)) ∧
      (∀ k : RegIdx, k ≠ x → t.v[k] = s.v[k]) ∧ t = { s with v := t.v })

/-- R147: the sum modulo 256, `VF` 1 exactly when the sum exceeds 255, no other register and no other state changed. `X` is not `F` here: `FlagIsWrittenLast` says what happens there. -/
def Obligations.AddSetsTheCarry : Prop :=
  ∀ (x y : RegIdx) (s : State), x ≠ vF →
    decode (0x8#4 ++ nibble x ++ nibble y ++ 0x4#4) = .ok (.addReg x y) ∧
    ∃ t, exec (.addReg x y) s = .next t ∧
      t.v[x].toNat = (s.v[x].toNat + s.v[y].toNat) % 256 ∧
      t.v[vF] = (if s.v[x].toNat + s.v[y].toNat > 255 then 1#8 else 0#8) ∧
      (∀ k : RegIdx, k ≠ x → k ≠ vF → t.v[k] = s.v[k]) ∧ t = { s with v := t.v }

/-- R148, R151, R153: the difference modulo 256, `VF` 1 exactly when the minuend is strictly greater, so 0 on equal operands; no other register and no other state changed. `X` is not `F` here: `FlagIsWrittenLast` says what happens there. -/
def Obligations.SubtractionsSetTheStrictFlag : Prop :=
  ∀ (x y : RegIdx) (s : State), x ≠ vF →
    decode (0x8#4 ++ nibble x ++ nibble y ++ 0x5#4) = .ok (.subReg x y) ∧
    (∃ t, exec (.subReg x y) s = .next t ∧
      (t.v[x].toNat : Int) = ((s.v[x].toNat : Int) - (s.v[y].toNat : Int)) % 256 ∧
      t.v[vF] = (if s.v[x].toNat > s.v[y].toNat then 1#8 else 0#8) ∧
      (∀ k : RegIdx, k ≠ x → k ≠ vF → t.v[k] = s.v[k]) ∧ t = { s with v := t.v }) ∧
    decode (0x8#4 ++ nibble x ++ nibble y ++ 0x7#4) = .ok (.subnReg x y) ∧
    (∃ t, exec (.subnReg x y) s = .next t ∧
      (t.v[x].toNat : Int) = ((s.v[y].toNat : Int) - (s.v[x].toNat : Int)) % 256 ∧
      t.v[vF] = (if s.v[y].toNat > s.v[x].toNat then 1#8 else 0#8) ∧
      (∀ k : RegIdx, k ≠ x → k ≠ vF → t.v[k] = s.v[k]) ∧ t = { s with v := t.v })

/-- R149, the spec's decision D9: with `X = F` the result is lost and the flag, computed from the old `VF`, remains; no other register and no other state changes. -/
def Obligations.FlagIsWrittenLast : Prop :=
  ∀ (y : RegIdx) (s : State),
    (∃ t, exec (.addReg vF y) s = .next t ∧
      t.v[vF] = (if s.v[vF].toNat + s.v[y].toNat > 255 then 1#8 else 0#8) ∧
      (∀ k : RegIdx, k ≠ vF → t.v[k] = s.v[k]) ∧ t = { s with v := t.v }) ∧
    (∃ t, exec (.subReg vF y) s = .next t ∧
      t.v[vF] = (if s.v[vF].toNat > s.v[y].toNat then 1#8 else 0#8) ∧
      (∀ k : RegIdx, k ≠ vF → t.v[k] = s.v[k]) ∧ t = { s with v := t.v }) ∧
    (∃ t, exec (.subnReg vF y) s = .next t ∧
      t.v[vF] = (if s.v[y].toNat > s.v[vF].toNat then 1#8 else 0#8) ∧
      (∀ k : RegIdx, k ≠ vF → t.v[k] = s.v[k]) ∧ t = { s with v := t.v })

/-- R150: all 256 words of `8XY6` raise `UnimplementedOpcode`; no register is read or written. That they decode to an instruction whose meaning raises it, where R150 and R103 say decode raises it, is the model's choice (notes/assumptions/16.md); what the fault records is the spec's R202 and R204 (its decision D15), read as notes/assumptions/4.md says. -/
def Obligations.ShiftAlwaysFaults : Prop :=
  ∀ (x y : RegIdx) (s : State),
    decode (0x8#4 ++ nibble x ++ nibble y ++ 0x6#4) = .ok (.shrReg x y) ∧
    exec (.shrReg x y) s = .next { s with halted := true, faultCause := .unimplementedOpcode,
                                          faultOpcode := 0x8#4 ++ nibble x ++ nibble y ++ 0x6#4,
                                          faultPc := s.pc - 2 }

/-! ### Index register and random (44_index_random.md) -/

/-- R160: `I <- zext_16(NNN)`, and nothing else. -/
def Obligations.LoadIndexWritesOnlyI : Prop :=
  ∀ (nnn : Addr12) (s : State),
    decode (0xA#4 ++ nnn) = .ok (.ldI nnn) ∧
    ∃ t, exec (.ldI nnn) s = .next t ∧ t.i.toNat = nnn.toNat ∧ t = { s with i := t.i }

/-- R161, R162: the draw under the mask, for every draw `r` the step is given; the old `V[X]` is not used, and every bit outside the mask is 0. The draw is consumed. With none given the draw is the next of the free stream, a value without a law. How the draw stands in `State` is the model's (notes/assumptions/2.md). -/
def Obligations.RandomIsTheDrawUnderTheMask : Prop :=
  ∀ (x : RegIdx) (nn : Byte) (s : State),
    decode (0xC#4 ++ nibble x ++ nn) = .ok (.rnd x nn) ∧
    (∀ r : Byte, s.suppliedDraw = some r →
      ∃ t, exec (.rnd x nn) s = .next t ∧ t.v[x] = r &&& nn ∧
        (∀ j < 8, nn.getLsbD j = false → t.v[x].getLsbD j = false) ∧
        (∀ k : RegIdx, k ≠ x → t.v[k] = s.v[k]) ∧ t = { s with v := t.v, suppliedDraw := none }) ∧
    (s.suppliedDraw = none →
      ∃ t, exec (.rnd x nn) s = .next t ∧ t.v[x] = Config.randomByte s.draws &&& nn ∧
        (∀ j < 8, nn.getLsbD j = false → t.v[x].getLsbD j = false) ∧
        (∀ k : RegIdx, k ≠ x → t.v[k] = s.v[k]) ∧ t = { s with v := t.v, draws := s.draws + 1 })

/-- R161: an instruction that is not `CXNN` ignores the draw: it consumes none and does the same whatever the draw and the stream are, and a step that executes no `CXNN` is the same for every draw. The two fields are the model's (notes/assumptions/2.md). -/
def Obligations.OnlyRandomUsesTheDraw : Prop :=
  (∀ (i : Instr) (s t : State) (r : Option Byte) (d : Nat), (∀ x nn, i ≠ .rnd x nn) → exec i s = .next t →
    t.suppliedDraw = s.suppliedDraw ∧ t.draws = s.draws ∧
    exec i { s with suppliedDraw := r, draws := d } = .next { t with suppliedDraw := r, draws := d }) ∧
  ∀ s : State, (∀ op x nn, fetch s = some op → decode op ≠ .ok (.rnd x nn)) →
    ∀ r r' : Byte, performHostOp (.step r) s = performHostOp (.step r') s

/-! ### Display (45_display.md) -/

/-- R172, R174: every cell unlit whatever it was, and nothing else changes, `VF` included. -/
def Obligations.ClearTurnsEveryCellOff : Prop :=
  decode 0x00E0#16 = .ok .cls ∧
  ∀ s : State, ∃ t, exec .cls s = .next t ∧ (∀ c : FbCell, t.fb.isLit c = false) ∧
    t = { s with fb := t.fb }

/-- R170, R171: a toggle flips the one cell and no other. -/
def Obligations.ToggleFlipsOneCell : Prop :=
  ∀ (fb : Framebuffer) (c d : FbCell),
    (fb.toggle c).isLit c = !fb.isLit c ∧ (d ≠ c → (fb.toggle c).isLit d = fb.isLit d) ∧
    (fb.toggle c).toggle c = fb

/-- R175, R176, R177: a draw whose accesses all fit flips exactly the covered cells, sets `VF` to 1 if a covered cell was lit before and to 0 otherwise, and changes nothing else. The bit order is the spec's decision D7, the operand order D8, the two phases D5. -/
def Obligations.DrawFlipsCoveredCellsAndReportsCollision : Prop :=
  ∀ (x y : RegIdx) (n : Nat) (s : State), (∀ row < n, spriteRowFits s x y row) →
    ∃ t, exec (.drw x y n) s = .next t ∧
      (∀ c, drawCovers s x y n c → t.fb.isLit c = !s.fb.isLit c) ∧
      (∀ c, ¬drawCovers s x y n c → t.fb.isLit c = s.fb.isLit c) ∧
      ((∃ c, drawCovers s x y n c ∧ s.fb.isLit c = true) → t.v[vF] = 1#8) ∧
      ((∀ c, drawCovers s x y n c → s.fb.isLit c = false) → t.v[vF] = 0#8) ∧
      (∀ k : RegIdx, k ≠ vF → t.v[k] = s.v[k]) ∧ t = { s with v := t.v, fb := t.fb }

/-- R178: the first failing access in scan order decides the cause, and nothing is written, `VF` included. The policy is the spec's decision D4, the order D5, that a 0 bit makes no access D6, what the fault records D15 (R202), read as notes/assumptions/4.md says. -/
def Obligations.DrawFaultsOnTheFirstFailingAccess : Prop :=
  ∀ (x y : RegIdx) (n row : Nat) (s : State), row < n → (∀ r < row, spriteRowFits s x y r) →
    (4095 < s.i.toNat + row →
      exec (.drw x y n) s =
        .next { s with halted := true, faultCause := .spriteReadOutOfRange,
                       faultOpcode := 0xD#4 ++ nibble x ++ nibble y ++ BitVec.ofNat 4 n,
                       faultPc := s.pc - 2 }) ∧
    (∀ j < 8, s.i.toNat + row ≤ 4095 → spriteBit s row j →
      63 < s.v[x].toNat % 64 + j ∨ 31 < s.v[y].toNat % 64 % 32 + row →
      exec (.drw x y n) s =
        .next { s with halted := true, faultCause := .framebufferOutOfRange,
                       faultOpcode := 0xD#4 ++ nibble x ++ nibble y ++ BitVec.ofNat 4 n,
                       faultPc := s.pc - 2 })

/-- R180: the same draw twice restores the framebuffer; the first `VF` says whether a covered cell was lit, the second whether one was unlit. `X` and `Y` are not `F`, or the second draw has another operand, as the rule says. -/
def Obligations.DrawingTwiceErases : Prop :=
  ∀ (x y : RegIdx) (n : Nat) (s t : State), x ≠ vF → y ≠ vF → s.halted = false →
    exec (.drw x y n) s = .next t → t.halted = false →
    ∃ u, exec (.drw x y n) t = .next u ∧ u.fb = s.fb ∧ u = { s with v := u.v } ∧
      (∀ k : RegIdx, k ≠ vF → u.v[k] = s.v[k]) ∧
      (t.v[vF] = 1#8 ↔ ∃ c, drawCovers s x y n c ∧ s.fb.isLit c = true) ∧
      (u.v[vF] = 1#8 ↔ ∃ c, drawCovers s x y n c ∧ s.fb.isLit c = false) ∧
      (t.v[vF] = 0#8 ∨ t.v[vF] = 1#8) ∧ (u.v[vF] = 0#8 ∨ u.v[vF] = 1#8)

/-! ### Reserved classes and invalid words (46_reserved_classes.md) -/

/-- R190, R191, R193 (the spec's decision D12): every word of classes E and F does nothing under the default policy and raises `UnimplementedOpcode` under the other, whatever its bits 11 to 0. What the fault records is the spec's decision D15 (R202); that the meaning raises it is the model's choice (notes/assumptions/16.md, notes/assumptions/4.md). -/
def Obligations.ReservedClassesFollowThePolicy : Prop :=
  ∀ (bits : Addr12) (s : State),
    decode (0xE#4 ++ bits) = .ok (.rsve bits) ∧ decode (0xF#4 ++ bits) = .ok (.rsvf bits) ∧
    (s.config.efPolicy = .noop → exec (.rsve bits) s = .next s ∧ exec (.rsvf bits) s = .next s) ∧
    (s.config.efPolicy = .fault →
      exec (.rsve bits) s = .next { s with halted := true, faultCause := .unimplementedOpcode,
                                           faultOpcode := 0xE#4 ++ bits, faultPc := s.pc - 2 } ∧
      exec (.rsvf bits) s = .next { s with halted := true, faultCause := .unimplementedOpcode,
                                           faultOpcode := 0xF#4 ++ bits, faultPc := s.pc - 2 })

/-- R192: an invalid word raises `InvalidOpcode` at decode: the four fault fields, `pc` at the fetch address plus 2, nothing else; in particular the first step after reset with nothing loaded. -/
def Obligations.InvalidWordRaisesInvalidOpcode : Prop :=
  (∀ (s : State) (op : Word) (e : DecodeError), s.halted = false → fetch s = some op →
    decode op = .error e →
    step s = .next { s with pc := s.pc + 2, halted := true, faultCause := .invalidOpcode,
                            faultOpcode := op, faultPc := s.pc }) ∧
  step State.reset = .next { State.reset with pc := 0x202#16, halted := true,
                                              faultCause := .invalidOpcode,
                                              faultOpcode := 0x0000#16, faultPc := 0x200#16 }

/-! ### Which instruction touches which state (10_state.md) -/

/-- R21: no instruction writes a general register other than the table says, and none uses one it does not list as read: with any other values in those, the step is the same but for the registers it left alone. The host reads all 16 and writes none. -/
def Obligations.RegistersAreAccessedAsTheTableSays : Prop :=
  (∀ (i : Instr) (s t : State), exec i s = .next t →
    (∀ k : RegIdx, k ∉ i.regWrites → t.v[k] = s.v[k]) ∧
    ∀ v' : Vector Byte 16, (∀ k ∈ i.regReads, v'[k] = s.v[k]) →
      ∃ t', exec i { s with v := v' } = .next t' ∧ t' = { t with v := t'.v } ∧
        ∀ k : RegIdx, t'.v[k] = t.v[k] ∨ (t'.v[k] = v'[k] ∧ t.v[k] = s.v[k])) ∧
  (∀ (op : HostOp) (s t : State) (r : HostResult), performHostOp op s = some (t, r) →
    op ≠ .reset → (∀ d, op ≠ .step d) → t.v = s.v) ∧
  ∀ (s : State) (k : RegIdx), (readState s).v[k] = s.v[k]

/-- R22: exactly `8XY4`, `8XY5`, `8XY7` and `DXYN` write `VF` as a side effect, and when they succeed they leave 0 or 1 there. Any other instruction changes `VF` only by naming it as its destination `X`. -/
def Obligations.FlagIsZeroOrOne : Prop :=
  ∀ (s t : State), s.halted = false → t.halted = false →
    (∀ x y, exec (.addReg x y) s = .next t → t.v[vF] = 0#8 ∨ t.v[vF] = 1#8) ∧
    (∀ x y, exec (.subReg x y) s = .next t → t.v[vF] = 0#8 ∨ t.v[vF] = 1#8) ∧
    (∀ x y, exec (.subnReg x y) s = .next t → t.v[vF] = 0#8 ∨ t.v[vF] = 1#8) ∧
    (∀ x y n, exec (.drw x y n) s = .next t → t.v[vF] = 0#8 ∨ t.v[vF] = 1#8) ∧
    (∀ i : Instr, exec i s = .next t → t.v[vF] ≠ s.v[vF] →
      i.regWrites = [vF] ∨ (∃ x y, i = .addReg x y) ∨ (∃ x y, i = .subReg x y) ∨
      ∃ x y, i = .subnReg x y)

/-- R24: which instruction changes `pc` during execution: the four transfers and the four skips, and no other; a fault does not. The width of `pc` is the spec's decision D1. -/
def Obligations.OnlyControlFlowMovesThePc : Prop :=
  ∀ (i : Instr) (s t : State), exec i s = .next t → t.pc ≠ s.pc →
    t.halted = s.halted ∧
    ((∃ nnn, i = .jp nnn ∧ t.pc.toNat = nnn.toNat) ∨
     (∃ nnn, i = .call nnn ∧ t.pc.toNat = nnn.toNat) ∨
     (∃ rest, i = .ret ∧ s.stack = t.pc :: rest) ∨
     (∃ nnn, i = .jpV0 nnn ∧ t.pc.toNat = s.v[v0].toNat + nnn.toNat) ∨
     (t.pc = s.pc + 2 ∧
      ((∃ x nn, i = .seImm x nn ∧ s.v[x] = nn) ∨ (∃ x nn, i = .sneImm x nn ∧ s.v[x] ≠ nn) ∨
       (∃ x y, i = .seReg x y ∧ s.v[x] = s.v[y]) ∨ (∃ x y, i = .sneReg x y ∧ s.v[x] ≠ s.v[y]))))

/-- R21, R24, R25, R27, R30, R31, R32, R34: the writers of each piece of state. By an instruction: a `V` register by an instruction whose row of R21 lists it; `pc` by a transfer or a skip; `I` by `ANNN`; the stack by `2NNN` and `00EE`; the framebuffer by `00E0` and `DXYN`; RAM and the timers by none; the status fields by a fault entry alone, which writes nothing else. By the host: each piece by the operations the rules name.
The parameters, which nothing writes, are the model's own field (notes/assumptions/1.md). -/
def Obligations.EachStateHasItsWriters : Prop :=
  (∀ (i : Instr) (s t : State), exec i s = .next t →
    (∀ k : RegIdx, t.v[k] ≠ s.v[k] → k ∈ i.regWrites) ∧
    (t.pc ≠ s.pc → i = .ret ∨ (∃ nnn, i = .jp nnn ∨ i = .call nnn ∨ i = .jpV0 nnn) ∨
      (∃ x nn, i = .seImm x nn ∨ i = .sneImm x nn) ∨ ∃ x y, i = .seReg x y ∨ i = .sneReg x y) ∧
    (t.i ≠ s.i → ∃ nnn, i = .ldI nnn) ∧
    (t.stack ≠ s.stack → i = .ret ∨ ∃ nnn, i = .call nnn) ∧
    (t.fb ≠ s.fb → i = .cls ∨ ∃ x y n, i = .drw x y n) ∧
    t.ram = s.ram ∧ t.dt = s.dt ∧ t.st = s.st ∧ t.config = s.config ∧
    (t.halted ≠ s.halted ∨ t.faultCause ≠ s.faultCause ∨ t.faultOpcode ≠ s.faultOpcode ∨
        t.faultPc ≠ s.faultPc →
      t.faultCause ≠ .ok ∧ t = { s with halted := true, faultCause := t.faultCause,
                                        faultOpcode := t.faultOpcode, faultPc := t.faultPc })) ∧
  (∀ (op : HostOp) (s t : State) (r : HostResult), performHostOp op s = some (t, r) →
    (t.v ≠ s.v ∨ t.pc ≠ s.pc ∨ t.i ≠ s.i ∨ t.stack ≠ s.stack → op = .reset ∨ ∃ d, op = .step d) ∧
    (t.halted ≠ s.halted ∨ t.faultCause ≠ s.faultCause ∨ t.faultOpcode ≠ s.faultOpcode ∨
      t.faultPc ≠ s.faultPc → op = .reset ∨ ∃ d, op = .step d) ∧
    (t.fb ≠ s.fb → op = .reset ∨ op = .clearDisplay ∨ ∃ d, op = .step d) ∧
    (t.ram ≠ s.ram → op = .reset ∨ ∃ bytes, op = .load bytes) ∧
    (t.dt ≠ s.dt ∨ t.st ≠ s.st → op = .reset ∨ op = .timerTick ∧ s.config.timerMode = .tick) ∧
    t.config = s.config)

/-- R223: no instruction reads or writes `DT` or `ST`; the host reads both, and only `reset` and, in `tick` mode, `timer_tick` change them. -/
def Obligations.TimersAreOutOfReachOfPrograms : Prop :=
  (∀ (i : Instr) (s t : State) (d e : Byte), exec i s = .next t →
    t.dt = s.dt ∧ t.st = s.st ∧
    exec i { s with dt := d, st := e } = .next { t with dt := d, st := e }) ∧
  (∀ (op : HostOp) (s t : State) (r : HostResult), performHostOp op s = some (t, r) →
    t.dt ≠ s.dt ∨ t.st ≠ s.st → op = .reset ∨ op = .timerTick ∧ s.config.timerMode = .tick) ∧
  ∀ s : State, (readState s).dt = s.dt ∧ (readState s).st = s.st

/-! ### Faults (60_exceptions.md) -/

/-- R107, R202, R204 (the spec's decisions D5, D15, D23): a step that faults changes nothing but the four fault fields and, unless it was the fetch that faulted, `pc`, which holds the fetch address plus 2; the opcode recorded is the word that was fetched. -/
def Obligations.FaultsArePreciseAndRecorded : Prop :=
  ∀ s t : State, s.halted = false → step s = .next t → t.halted = true →
    (4095 ≤ s.pc.toNat →
      t = { s with halted := true, faultCause := .fetchOutOfRange, faultOpcode := 0x0000#16,
                   faultPc := s.pc }) ∧
    (s.pc.toNat ≤ 4094 →
      t.faultCause ≠ .ok ∧ t.faultCause ≠ .fetchOutOfRange ∧
      t = { s with pc := s.pc + 2, halted := true, faultCause := t.faultCause,
                   faultOpcode := s.ram.byteAt s.pc.toNat ++ s.ram.byteAt (s.pc.toNat + 1),
                   faultPc := s.pc })

/-- R201 with the order of R108 and R178: the result of a step of a running core is each cause exactly under its condition, and `ok` exactly when the core is not halted by it. The causes 4 to 7 are the spec's decisions D3 and D4. -/
def Obligations.EachCauseHasItsCondition : Prop :=
  ∀ (s t : State) (r : Byte) (c : FaultCause) (op : Word), s.halted = false →
    performHostOp (.step r) s = some (t, .stepped c) →
    op = s.ram.byteAt s.pc.toNat ++ s.ram.byteAt (s.pc.toNat + 1) →
    (c = .ok ↔ t.halted = false) ∧
    (c = .fetchOutOfRange ↔ 4095 ≤ s.pc.toNat) ∧
    (c = .invalidOpcode ↔ s.pc.toNat ≤ 4094 ∧ ∃ e, decode op = .error e) ∧
    (c = .unimplementedOpcode ↔ s.pc.toNat ≤ 4094 ∧
      ((∃ x y, decode op = .ok (.shrReg x y)) ∨
       s.config.efPolicy = .fault ∧ ∃ bits, decode op = .ok (.rsve bits) ∨ decode op = .ok (.rsvf bits))) ∧
    (c = .stackUnderflow ↔ s.pc.toNat ≤ 4094 ∧ decode op = .ok .ret ∧ s.sp = 0) ∧
    (c = .stackOverflow ↔ s.pc.toNat ≤ 4094 ∧ (∃ nnn, decode op = .ok (.call nnn)) ∧
      s.sp = s.config.stackDepth) ∧
    (c = .spriteReadOutOfRange ↔ s.pc.toNat ≤ 4094 ∧ ∃ x y n, decode op = .ok (.drw x y n) ∧
      ∃ row < n, (∀ r < row, spriteRowFits s x y r) ∧ 4095 < s.i.toNat + row) ∧
    (c = .framebufferOutOfRange ↔ s.pc.toNat ≤ 4094 ∧ ∃ x y n, decode op = .ok (.drw x y n) ∧
      ∃ row < n, (∀ r < row, spriteRowFits s x y r) ∧ s.i.toNat + row ≤ 4095 ∧
        ∃ j < 8, spriteBit s row j ∧
          (63 < s.v[x].toNat % 64 + j ∨ 31 < s.v[y].toNat % 64 % 32 + row))

/-- R201: the code of each cause in the 3-bit field (the numbers are the spec's decision D16), which is what `read_state()` returns. -/
def Obligations.CausesHaveTheirCodes : Prop :=
  faultCode .ok = 0#3 ∧ faultCode .invalidOpcode = 1#3 ∧ faultCode .unimplementedOpcode = 2#3 ∧
  faultCode .stackUnderflow = 3#3 ∧ faultCode .stackOverflow = 4#3 ∧
  faultCode .fetchOutOfRange = 5#3 ∧ faultCode .spriteReadOutOfRange = 6#3 ∧
  faultCode .framebufferOutOfRange = 7#3 ∧
  ∀ s : State, (readState s).faultCause = faultCode s.faultCause

/-! ### The host's operations (60_exceptions.md) -/

/-- R228 (that an oversize load is refused whole is the spec's decision D18): the bytes land verbatim from 0x200 on, no other byte and no other state changes; above 3584 bytes nothing is written and the result is `LoadOverflow`. RAM is in its canonical form, as in every reachable state. -/
def Obligations.LoadCopiesVerbatimOrRefuses : Prop :=
  ∀ (bytes : List Byte) (s : State), s.ram.wf →
    (bytes.length ≤ 3584 →
      ∃ t, performHostOp (.load bytes) s = some (t, .loaded .ok) ∧ t = { s with ram := t.ram } ∧ t.ram.wf ∧
        (∀ k (h : k < bytes.length), t.ram.read (0x200 + k) = some bytes[k]) ∧
        (∀ addr, addr < 0x200 ∨ 0x200 + bytes.length ≤ addr → t.ram.read addr = s.ram.read addr)) ∧
    (3584 < bytes.length → performHostOp (.load bytes) s = some (s, .loaded .loadOverflow))

/-- R251, R255 with R65: after reset and a load of at least two bytes, the next fetch sees the first two of them, and the word they form is run from 0x200. -/
def Obligations.LoadedProgramRunsFromItsFirstWord : Prop :=
  ∀ (s : State) (b0 b1 : Byte) (rest : List Byte), rest.length ≤ 3582 →
    ∃ u t, performHostOp .reset s = some (u, .none) ∧
      performHostOp (.load (b0 :: b1 :: rest)) u = some (t, .loaded .ok) ∧ t.pc = 0x200#16 ∧ t.halted = false ∧
      fetch t = some (b0 ++ b1) ∧
      ∀ i, decode (b0 ++ b1) = .ok i → step t = exec i { t with pc := 0x202#16 }

/-- R229: the snapshot lists all 2048 cells in row-major order and changes nothing. -/
def Obligations.SnapshotIsRowMajor : Prop :=
  ∀ s : State, ∃ cells, performHostOp .framebufferSnapshot s = some (s, .cells cells) ∧
    cells.toList.length = 2048 ∧
    ∀ c : FbCell, cells.toList[64 * c.y.val + c.x.val]? = some (s.fb.isLit c)

/-- R230: `clear_display()` turns every cell off and changes nothing else, `VF` and `pc` included. -/
def Obligations.ClearDisplayTouchesOnlyCells : Prop :=
  ∀ s : State, ∃ t, performHostOp .clearDisplay s = some (t, .none) ∧
    (∀ c : FbCell, t.fb.isLit c = false) ∧ t = { s with fb := t.fb }

/-- R231 (the operation is the spec's decision D18): `read_state()` returns every register, the stack entries below `sp` with `stack[0]` first, the timers and the status fields, and changes nothing; asked for a byte of RAM it returns that too. That an address above 4095 gives no byte is the model's choice (notes/assumptions/17.md). -/
def Obligations.ReadStateReturnsTheState : Prop :=
  ∀ s : State, ∃ view,
    performHostOp (.readState none) s = some (s, .view view none) ∧
    (∀ addr < 4096, performHostOp (.readState (some addr)) s =
      some (s, .view view (some (s.ram.byteAt addr)))) ∧
    (∀ addr, 4096 ≤ addr → performHostOp (.readState (some addr)) s = some (s, .view view none)) ∧
    view.v = s.v ∧ view.pc = s.pc ∧ view.i = s.i ∧ view.sp = s.sp ∧
    (∀ k < s.sp, view.stack[s.sp - 1 - k]? = s.stack[k]?) ∧ view.stack.length = s.sp ∧
    view.dt = s.dt ∧ view.st = s.st ∧ view.halted = s.halted ∧
    view.faultCause = faultCode s.faultCause ∧ view.faultOpcode = s.faultOpcode ∧
    view.faultPc = s.faultPc

/-- R221, R232 (the mode is the spec's decision D13): in `tick` mode each tick takes 1 from each timer that is above 0, so `k` ticks take `k` and never pass 0, and nothing else changes; in `hold` mode the operation does not exist. -/
def Obligations.TicksCountDownToZero : Prop :=
  (∀ s : State, s.config.timerMode = .hold → performHostOp .timerTick s = none) ∧
  (∀ s : State, s.config.timerMode = .tick → ∃ t, performHostOp .timerTick s = some (t, .none) ∧
    t.dt.toNat = s.dt.toNat - 1 ∧ t.st.toNat = s.st.toNat - 1 ∧ t = { s with dt := t.dt, st := t.st }) ∧
  ∀ (k : Nat) (b : Byte), (tickTimer^[k] b).toNat = b.toNat - k

/-- R233: besides `reset` and `step`, no host operation writes a `V` register, `pc`, `I`, the stack, the status fields, a timer (but `timer_tick`), a single framebuffer cell (`clear_display` turns all of them off), RAM below 0x200, or any of RAM but by `load`. -/
def Obligations.HostWritesOnlyItsOwnTargets : Prop :=
  ∀ (op : HostOp) (s t : State) (r : HostResult), performHostOp op s = some (t, r) →
    op ≠ .reset → (∀ d, op ≠ .step d) →
    t.v = s.v ∧ t.pc = s.pc ∧ t.i = s.i ∧ t.stack = s.stack ∧ t.halted = s.halted ∧
    t.faultCause = s.faultCause ∧ t.faultOpcode = s.faultOpcode ∧ t.faultPc = s.faultPc ∧
    t.config = s.config ∧
    (op ≠ .timerTick → t.dt = s.dt ∧ t.st = s.st) ∧
    (t.fb = s.fb ∨ op = .clearDisplay ∧ ∀ c : FbCell, t.fb.isLit c = false) ∧
    (∀ addr, addr < 0x200 ∨ (∀ bytes, op ≠ .load bytes) → t.ram.read addr = s.ram.read addr)

/-! ### Reset, invariant, end of a run (70_reset_and_hazards.md, 10_state.md) -/

/-- R37, R250: the value of every piece of state after `reset()`, from any state, and in `State.reset`. Reset as an operation is the spec's decision D19, the timers' 255 D13, the status fields D15. That the parameters stay is the model's (notes/assumptions/8.md). -/
def Obligations.ResetGivesTheResetValues : Prop :=
  ∀ s : State, ∃ u, performHostOp .reset s = some (u, .none) ∧ u.config = s.config ∧
    ∀ t : State, t = u ∨ t = State.reset →
      (∀ k : RegIdx, t.v[k] = 0x00#8) ∧ t.pc = 0x200#16 ∧ t.i = 0x000#16 ∧ t.stack = [] ∧ t.sp = 0 ∧
      (∀ addr < 4096, t.ram.read addr = some 0x00#8) ∧ t.dt = 255#8 ∧ t.st = 255#8 ∧
      (∀ c : FbCell, t.fb.isLit c = false) ∧
      t.halted = false ∧ t.faultCause = .ok ∧ t.faultOpcode = 0x0000#16 ∧ t.faultPc = 0x0000#16

/-- The state after reset, with any legal parameters, meets the invariant of R38. -/
def Obligations.ResetMeetsTheInvariant : Prop :=
  ∀ c : Config, c.legal → ({ State.reset with config := c } : State).Inv

/-- R38: a step from any state that meets the invariant leads to a state that meets it. -/
def Obligations.StepKeepsTheInvariant : Prop :=
  ∀ s t : State, s.Inv → step s = .next t → t.Inv

/-- R38: every state that the host's operations can lead to, whatever programs they load and whenever they step, tick, clear or reset, meets the invariant; so RAM below 0x200 reads 0 for ever (R51) and in `hold` mode both timers read 255 for ever (R31). -/
def Obligations.ReachableStatesMeetTheInvariant : Prop :=
  ∀ s : State, Reachable s → s.Inv

/-- R265 (the notion is the spec's decision D21): in a parked state every further step, on any draw, answers `ok` and leaves the whole state as it is. -/
def Obligations.ParkedStateIsAFixedPoint : Prop :=
  ∀ s : State, Parked s →
    (∀ r : Byte, performHostOp (.step r) s = some (s, .stepped .ok)) ∧
    ∀ k : Nat, Sys2Proof.core.run k s = .next s

/-! ### The invariant under every operation, and the draw of a step -/

/-- R38: every operation of the host, a step on any draw among them, leads from any state that meets the invariant to a state that meets it. -/
def Obligations.HostOperationsKeepTheInvariant : Prop :=
  ∀ (op : HostOp) (s t : State) (r : HostResult), s.Inv → performHostOp op s = some (t, r) → t.Inv

/-- R105, R161, R227: `step`, which takes no argument, is the host's step on the draw that stands in `State`, but for the two fields that hold the draws, which are the model's (notes/assumptions/2.md); so what holds of the host's step for every draw holds of `step`. -/
def Obligations.StepIsTheHostStepOnItsDraw : Prop :=
  ∀ s t : State, step s = .next t →
    ∃ u c, performHostOp (.step (nextDraw s)) s = some (u, .stepped c) ∧
      t = { u with suppliedDraw := t.suppliedDraw, draws := t.draws } ∧
      (∀ r, s.suppliedDraw = some r → nextDraw s = r) ∧
      (s.suppliedDraw = none → nextDraw s = Config.randomByte s.draws)
end

