-- ==== Sys2Proof/Laws/Decode.lean ====
section
/-! SUPPORT. The fields of a word built from its fields, a word rebuilt from its fields, and the decoder by class. -/

namespace Sys2Proof

@[simp] theorem regOf_nibble (x : RegIdx) : regOf (nibble x) = x := by revert x; decide

@[simp] theorem nibble_regOf (b : BitVec 4) : nibble (regOf b) = b := by revert b; decide

/-! ### The fields of `class :: NNN` -/

@[simp] theorem opClass_nnn (c : BitVec 4) (nnn : Addr12) : opClass (c ++ nnn) = c := by
  ext i hi
  simp only [opClass, BitVec.getElem_extractLsb', BitVec.getLsbD_append]
  rw [if_neg (by omega), BitVec.getLsbD_eq_getElem (by omega)]
  congr 1; omega

@[simp] theorem fieldNNN_nnn (c : BitVec 4) (nnn : Addr12) : fieldNNN (c ++ nnn) = nnn := by
  ext i hi
  simp only [fieldNNN, BitVec.getElem_extractLsb', BitVec.getLsbD_append]
  rw [if_pos (by omega), BitVec.getLsbD_eq_getElem (by omega)]
  congr 1; omega

theorem word_of_nnn (op : Word) : opClass op ++ fieldNNN op = op := by
  ext i hi
  simp only [opClass, fieldNNN, BitVec.getElem_append, BitVec.getElem_extractLsb']
  split <;> (rw [BitVec.getLsbD_eq_getElem (by omega)]; congr 1; omega)

/-! ### The fields of `class :: X :: NN` -/

@[simp] theorem opClass_xnn (c : BitVec 4) (x : RegIdx) (nn : Byte) :
    opClass (c ++ nibble x ++ nn) = c := by
  ext i hi
  simp only [opClass, BitVec.getElem_extractLsb', BitVec.getLsbD_append]
  rw [if_neg (by omega), if_neg (by omega), BitVec.getLsbD_eq_getElem (by omega)]
  congr 1; omega

@[simp] theorem fieldX_xnn (c : BitVec 4) (x : RegIdx) (nn : Byte) :
    fieldX (c ++ nibble x ++ nn) = x := by
  suffices h : BitVec.extractLsb' 8 4 (c ++ nibble x ++ nn) = nibble x by
    rw [fieldX, h, regOf_nibble]
  ext i hi
  simp only [BitVec.getElem_extractLsb', BitVec.getLsbD_append]
  rw [if_neg (by omega), if_pos (by omega), BitVec.getLsbD_eq_getElem (by omega)]
  congr 1; omega

@[simp] theorem fieldNN_xnn (c : BitVec 4) (x : RegIdx) (nn : Byte) :
    fieldNN (c ++ nibble x ++ nn) = nn := by
  ext i hi
  simp only [fieldNN, BitVec.getElem_extractLsb', BitVec.getLsbD_append]
  rw [if_pos (by omega), BitVec.getLsbD_eq_getElem (by omega)]
  congr 1; omega

theorem word_of_xnn (op : Word) : opClass op ++ nibble (fieldX op) ++ fieldNN op = op := by
  simp only [fieldX, nibble_regOf]
  ext i hi
  simp only [opClass, fieldNN, BitVec.getElem_append, BitVec.getElem_extractLsb']
  split
  · rw [BitVec.getLsbD_eq_getElem (by omega)]; congr 1; omega
  · split <;> (rw [BitVec.getLsbD_eq_getElem (by omega)]; congr 1; omega)

/-! ### The fields of `class :: X :: Y :: N` -/

@[simp] theorem opClass_xyn (c n : BitVec 4) (x y : RegIdx) :
    opClass (c ++ nibble x ++ nibble y ++ n) = c := by
  ext i hi
  simp only [opClass, BitVec.getElem_extractLsb', BitVec.getLsbD_append]
  rw [if_neg (by omega), if_neg (by omega), if_neg (by omega), BitVec.getLsbD_eq_getElem (by omega)]
  congr 1; omega

@[simp] theorem fieldX_xyn (c n : BitVec 4) (x y : RegIdx) :
    fieldX (c ++ nibble x ++ nibble y ++ n) = x := by
  suffices h : BitVec.extractLsb' 8 4 (c ++ nibble x ++ nibble y ++ n) = nibble x by
    rw [fieldX, h, regOf_nibble]
  ext i hi
  simp only [BitVec.getElem_extractLsb', BitVec.getLsbD_append]
  rw [if_neg (by omega), if_neg (by omega), if_pos (by omega), BitVec.getLsbD_eq_getElem (by omega)]
  congr 1; omega

@[simp] theorem fieldY_xyn (c n : BitVec 4) (x y : RegIdx) :
    fieldY (c ++ nibble x ++ nibble y ++ n) = y := by
  suffices h : BitVec.extractLsb' 4 4 (c ++ nibble x ++ nibble y ++ n) = nibble y by
    rw [fieldY, h, regOf_nibble]
  ext i hi
  simp only [BitVec.getElem_extractLsb', BitVec.getLsbD_append]
  rw [if_neg (by omega), if_pos (by omega), BitVec.getLsbD_eq_getElem (by omega)]
  congr 1; omega

@[simp] theorem fieldN_xyn (c n : BitVec 4) (x y : RegIdx) :
    fieldN (c ++ nibble x ++ nibble y ++ n) = n.toNat := by
  suffices h : BitVec.extractLsb' 0 4 (c ++ nibble x ++ nibble y ++ n) = n by
    rw [fieldN, h]
  ext i hi
  simp only [BitVec.getElem_extractLsb', BitVec.getLsbD_append]
  rw [if_pos (by omega), BitVec.getLsbD_eq_getElem (by omega)]
  congr 1; omega

theorem word_of_xyn (op : Word) :
    opClass op ++ nibble (fieldX op) ++ nibble (fieldY op) ++ BitVec.ofNat 4 (fieldN op) = op := by
  simp only [fieldX, fieldY, fieldN, nibble_regOf, BitVec.ofNat_toNat, BitVec.setWidth_eq]
  ext i hi
  simp only [opClass, BitVec.getElem_append, BitVec.getElem_extractLsb']
  split
  · rw [BitVec.getLsbD_eq_getElem (by omega)]; congr 1; omega
  · split
    · rw [BitVec.getLsbD_eq_getElem (by omega)]; congr 1; omega
    · split <;> (rw [BitVec.getLsbD_eq_getElem (by omega)]; congr 1; omega)

theorem opClass_eq_of_toNat {op : Word} {k : Nat} (h : (opClass op).toNat = k) :
    opClass op = BitVec.ofNat 4 k := by
  rw [← h, BitVec.ofNat_toNat, BitVec.setWidth_eq]

theorem fieldN_lt (op : Word) : fieldN op < 16 := (op.extractLsb' 0 4).isLt

/-! ### Bytes and words -/

@[simp] theorem wordOfBytes_high_low (w : Word) : wordOfBytes (highByte w) (lowByte w) = w := by
  apply BitVec.eq_of_getLsbD_eq
  intro i hi
  change (highByte w ++ lowByte w).getLsbD i = w.getLsbD i
  simp only [highByte, lowByte, BitVec.getLsbD_append, BitVec.getLsbD_extractLsb']
  split <;> rename_i h
  · simp [h]
  · simp only [show i - 8 < 8 by omega, decide_true, Bool.true_and]
    congr 1; omega

theorem decodeTableWord_eq (nbits w : Nat) :
    decodeTableWord nbits w = (decode (tableWord nbits w)).toOption := by
  simp only [decodeTableWord, decodeBytes, wordOfBytes_high_low]
  cases decode (tableWord nbits w) <;> rfl

/-! ### The opcode map (R76) -/

/-- Masking with 0xF000 keeps the class. -/
theorem mask_class (w : Word) : w &&& 0xF000#16 = opClass w ++ 0x000#12 := by
  have h : ∀ i < 16, (0xF000#16).getLsbD i = decide (12 ≤ i) := by decide
  apply BitVec.eq_of_getLsbD_eq
  intro i hi
  rw [BitVec.getLsbD_and, h i hi]
  change _ = (opClass w ++ 0x000#12).getLsbD i
  simp only [BitVec.getLsbD_append, opClass, BitVec.getLsbD_extractLsb']
  by_cases hc : 12 ≤ i
  · simp [show ¬ i < 12 by omega, hc, show i - 12 < 4 by omega, show 12 + (i - 12) = i by omega]
  · simp [show i < 12 by omega, hc]
/-- Masking with 0xF00F keeps the class and the low nibble. -/
theorem mask_class_nibble (w : Word) :
    w &&& 0xF00F#16 = opClass w ++ 0x00#8 ++ BitVec.ofNat 4 (fieldN w) := by
  have h : ∀ i < 16, (0xF00F#16).getLsbD i = (decide (12 ≤ i) || decide (i < 4)) := by decide
  apply BitVec.eq_of_getLsbD_eq
  intro i hi
  rw [BitVec.getLsbD_and, h i hi, fieldN, BitVec.ofNat_toNat, BitVec.setWidth_eq]
  change _ = (opClass w ++ 0x00#8 ++ w.extractLsb' 0 4).getLsbD i
  simp only [BitVec.getLsbD_append, opClass, BitVec.getLsbD_extractLsb']
  by_cases hc : 12 ≤ i
  · simp [show ¬ i < 4 by omega, show ¬ i - 4 < 8 by omega, hc, show i - 4 - 8 < 4 by omega, show 12 + (i - 4 - 8) = i by omega]
  · by_cases h4 : i < 4
    · simp [h4, hc]
    · simp [h4, hc, show i - 4 < 8 by omega]
@[simp] theorem opClass_and_class (w : Word) : opClass (w &&& 0xF000#16) = opClass w := by
  rw [mask_class, opClass_nnn]

theorem split_byte (c n : BitVec 4) : c ++ 0x00#8 ++ n = c ++ nibble 0 ++ nibble 0 ++ n := by
  revert c n; decide

@[simp] theorem opClass_and_class_nibble (w : Word) : opClass (w &&& 0xF00F#16) = opClass w := by
  rw [mask_class_nibble, split_byte, opClass_xyn]

@[simp] theorem fieldN_and_class_nibble (w : Word) : fieldN (w &&& 0xF00F#16) = fieldN w := by
  rw [mask_class_nibble, split_byte, fieldN_xyn, BitVec.toNat_ofNat, Nat.mod_eq_of_lt (fieldN_lt w)]

/-- No two rows overlap. -/
theorem opcodeRows_disjoint :
    opcodeRows.Pairwise fun r q => r.pattern &&& q.mask ≠ q.pattern &&& r.mask := by decide

theorem opcodeRowOf_mem (i : Instr) : opcodeRowOf i ∈ opcodeRows := by
  cases i <;> simp [opcodeRowOf, opcodeRows]

end Sys2Proof
end

