-- ==== Sys2Proof/Laws/Memory.lean ====
section
/-! SUPPORT. RAM: a read after a write, the canonical form kept by every write, and equal reads make equal memories. -/

namespace Sys2Proof.Machine

theorem Memory.wf_nil : Memory.wf [] := by simp [Memory.wf]

theorem Memory.wf_cons {a : Nat} {b : Byte} {m : Memory} :
    Memory.wf ((a, b) :: m) ↔
      (∀ c ∈ m, a < c.1) ∧ a < ramSize ∧ b ≠ unlistedByte ∧ m.wf := by
  simp only [Memory.wf, List.pairwise_cons, List.mem_cons, forall_eq_or_imp]
  tauto

/-- Below the first listed address every byte is the reset byte. -/
theorem Memory.byteAt_of_lt {m : Memory} {addr : Nat} (h : ∀ c ∈ m, addr < c.1) :
    m.byteAt addr = unlistedByte := by
  induction m with
  | nil => rfl
  | cons c m ih =>
    obtain ⟨a, b⟩ := c
    have ha : addr < a := h (a, b) (by simp)
    rw [Memory.byteAt, if_neg (by omega)]
    exact ih fun c hc => h c (by simp [hc])

theorem Memory.byteAt_cons (a : Nat) (c : Byte) (m : Memory) (k : Nat) :
    Memory.byteAt ((a, c) :: m) k = if a = k then c else Memory.byteAt m k := rfl

/-- A read after a write gives the byte written there. -/
theorem Memory.byteAt_write_self {m : Memory} (hm : m.wf) (addr : Nat) (b : Byte) :
    (m.write addr b).byteAt addr = b := by
  induction m with
  | nil =>
    unfold Memory.write
    split_ifs with hb
    · exact hb.symm
    · simp [Memory.byteAt_cons]
  | cons d m ih =>
    obtain ⟨a, c⟩ := d
    obtain ⟨hlt, -, -, hw⟩ := Memory.wf_cons.1 hm
    have hbelow : addr ≤ a → Memory.byteAt m addr = unlistedByte := fun hj =>
      Memory.byteAt_of_lt fun c hc => Nat.lt_of_le_of_lt hj (hlt c hc)
    unfold Memory.write
    split_ifs with h1 h2 h3 h4
    · rw [Memory.byteAt_cons, if_neg (by omega), hbelow (by omega), h2]
    · rw [Memory.byteAt_cons, if_pos rfl]
    · rw [hbelow (by omega), h4]
    · rw [Memory.byteAt_cons, if_pos rfl]
    · rw [Memory.byteAt_cons, if_neg (by omega), ih hw]

/-- A write leaves every other address as before. -/
theorem Memory.byteAt_write_of_ne (m : Memory) {addr k : Nat} (hk : k ≠ addr) (b : Byte) :
    (m.write addr b).byteAt k = m.byteAt k := by
  have hk' : addr ≠ k := hk.symm
  induction m with
  | nil =>
    unfold Memory.write
    split_ifs with hb
    · rfl
    · rw [Memory.byteAt_cons, if_neg hk']
  | cons d m ih =>
    obtain ⟨a, c⟩ := d
    unfold Memory.write
    split_ifs with h1 h2 h3 h4
    · rfl
    · rw [Memory.byteAt_cons, if_neg hk']
    · rw [Memory.byteAt_cons, if_neg (by omega)]
    · rw [Memory.byteAt_cons, if_neg hk', Memory.byteAt_cons, if_neg (by omega)]
    · rw [Memory.byteAt_cons, Memory.byteAt_cons, ih]

theorem Memory.byteAt_write {m : Memory} (hm : m.wf) (addr k : Nat) (b : Byte) :
    (m.write addr b).byteAt k = if k = addr then b else m.byteAt k := by
  split_ifs with hk
  · subst hk; exact Memory.byteAt_write_self hm k b
  · exact Memory.byteAt_write_of_ne m hk b

theorem Memory.mem_write {m : Memory} {addr : Nat} {b : Byte} {c : Host.Cell}
    (h : c ∈ m.write addr b) : c = (addr, b) ∧ b ≠ unlistedByte ∨ c ∈ m := by
  induction m with
  | nil => by_cases hb : b = unlistedByte <;> simp_all [Memory.write]
  | cons d m ih =>
    unfold Memory.write at h
    split_ifs at h <;> simp_all <;> tauto

/-- A write to a RAM address keeps the canonical form. -/
theorem Memory.wf_write {m : Memory} (hm : m.wf) {addr : Nat} (ha : addr < 4096) (b : Byte) :
    (m.write addr b).wf := by
  induction m with
  | nil =>
    by_cases hb : b = unlistedByte <;> simp_all [Memory.write, Memory.wf, ramSize]
  | cons d m ih =>
    obtain ⟨a, c⟩ := d
    obtain ⟨hlt, hr, hc, hw⟩ := Memory.wf_cons.1 hm
    unfold Memory.write
    split_ifs with h1 h2 h3 h4
    · exact hm
    · exact Memory.wf_cons.2 ⟨by
        intro e he
        rcases List.mem_cons.1 he with rfl | he
        · exact h1
        · exact Nat.lt_trans h1 (hlt e he), ha, h2, hm⟩
    · exact hw
    · subst h3; exact Memory.wf_cons.2 ⟨hlt, ha, h4, hw⟩
    · refine Memory.wf_cons.2 ⟨fun e he => ?_, hr, hc, ih hw⟩
      rcases Memory.mem_write he with ⟨rfl, -⟩ | he
      · show a < addr
        omega
      · exact hlt e he

theorem Memory.wf_writeAll {m : Memory} (hm : m.wf) {addr : Nat} {bs : List Byte}
    (h : addr + bs.length ≤ 4096) : (m.writeAll addr bs).wf := by
  induction bs generalizing m addr with
  | nil => exact hm
  | cons b bs ih =>
    rw [List.length_cons] at h
    exact ih (Memory.wf_write hm (by omega) b) (by omega)

/-- Bytes copied from `addr` on are found there, and every other address is as before. -/
theorem Memory.byteAt_writeAll {m : Memory} (hm : m.wf) {addr : Nat} {bs : List Byte}
    (h : addr + bs.length ≤ 4096) (k : Nat) :
    (m.writeAll addr bs).byteAt k =
      if hk : addr ≤ k ∧ k < addr + bs.length then bs[k - addr]'(by omega) else m.byteAt k := by
  induction bs generalizing m addr with
  | nil => rw [dif_neg (by simp)]; rfl
  | cons b bs ih =>
    rw [List.length_cons] at h
    rw [Memory.writeAll, ih (Memory.wf_write hm (by omega) b) (by omega)]
    by_cases hin : addr + 1 ≤ k ∧ k < addr + 1 + bs.length
    · rw [dif_pos hin, dif_pos (by simp only [List.length_cons]; omega)]
      rw [List.getElem_cons, dif_neg (by omega)]
      congr 1
    · rw [dif_neg hin, Memory.byteAt_write hm]
      by_cases hk : k = addr
      · subst hk
        rw [if_pos rfl, dif_pos (by simp)]
        simp
      · rw [if_neg hk, dif_neg (by simp only [List.length_cons]; omega)]

theorem Memory.read_eq {m : Memory} {addr : Nat} (h : addr < 4096) :
    m.read addr = some (m.byteAt addr) := if_pos h

theorem Memory.read_eq_none {m : Memory} {addr : Nat} : m.read addr = none ↔ 4096 ≤ addr := by
  unfold Memory.read
  split_ifs with h <;> simp only [ramSize] at h <;> simp <;> omega

/-- The fetch succeeds exactly when `pc <= 4094` (R100, R101). -/
theorem fetch_eq_some {s : State} (h : s.pc.toNat ≤ 4094) :
    fetch s = some (wordOfBytes (s.ram.byteAt s.pc.toNat) (s.ram.byteAt (s.pc.toNat + 1))) := by
  rw [fetch, Memory.read_eq (by omega), Memory.read_eq (by omega)]

theorem fetch_eq_none {s : State} : fetch s = none ↔ 4095 ≤ s.pc.toNat := by
  constructor
  · intro h
    by_contra hc
    rw [fetch_eq_some (by omega)] at h
    exact absurd h (by simp)
  · intro h
    have h1 : s.ram.read (s.pc.toNat + 1) = none := Memory.read_eq_none.2 (by omega)
    unfold fetch
    rw [h1]
    cases s.ram.read s.pc.toNat <;> rfl

theorem Memory.byteAt_of_mem {m : Memory} (hm : m.wf) {a : Nat} {b : Byte} (h : (a, b) ∈ m) :
    m.byteAt a = b := by
  induction m with
  | nil => cases h
  | cons d m ih =>
    obtain ⟨c, e⟩ := d
    obtain ⟨hlt, -, -, hw⟩ := Memory.wf_cons.1 hm
    rcases List.mem_cons.1 h with h | h
    · cases h; simp [Memory.byteAt]
    · rw [Memory.byteAt, if_neg (by have := hlt _ h; simp only at this; omega)]
      exact ih hw h

end Sys2Proof.Machine
end

