-- ==== Sys2Proof/Laws/State.lean ====
section
/-! SUPPORT. What each update of the state does to each field, and reads of registers and cells after a write. -/

namespace Sys2Proof.Machine

variable (s : State)

/-! ### `setPc` -/

@[simp] theorem State.setPc_v (t : Word) : (s.setPc t).v = s.v := rfl
@[simp] theorem State.setPc_pc (t : Word) : (s.setPc t).pc = t := rfl
@[simp] theorem State.setPc_i (t : Word) : (s.setPc t).i = s.i := rfl
@[simp] theorem State.setPc_stack (t : Word) : (s.setPc t).stack = s.stack := rfl
@[simp] theorem State.setPc_dt (t : Word) : (s.setPc t).dt = s.dt := rfl
@[simp] theorem State.setPc_st (t : Word) : (s.setPc t).st = s.st := rfl
@[simp] theorem State.setPc_ram (t : Word) : (s.setPc t).ram = s.ram := rfl
@[simp] theorem State.setPc_fb (t : Word) : (s.setPc t).fb = s.fb := rfl
@[simp] theorem State.setPc_halted (t : Word) : (s.setPc t).halted = s.halted := rfl
@[simp] theorem State.setPc_faultCause (t : Word) : (s.setPc t).faultCause = s.faultCause := rfl
@[simp] theorem State.setPc_faultOpcode (t : Word) : (s.setPc t).faultOpcode = s.faultOpcode := rfl
@[simp] theorem State.setPc_faultPc (t : Word) : (s.setPc t).faultPc = s.faultPc := rfl
@[simp] theorem State.setPc_config (t : Word) : (s.setPc t).config = s.config := rfl
@[simp] theorem State.setPc_suppliedDraw (t : Word) : (s.setPc t).suppliedDraw = s.suppliedDraw := rfl
@[simp] theorem State.setPc_draws (t : Word) : (s.setPc t).draws = s.draws := rfl

/-! ### `setV` -/

@[simp] theorem State.setV_v (x : RegIdx) (b : Byte) : (s.setV x b).v = s.v.set x.val b x.isLt := rfl
@[simp] theorem State.setV_pc (x : RegIdx) (b : Byte) : (s.setV x b).pc = s.pc := rfl
@[simp] theorem State.setV_i (x : RegIdx) (b : Byte) : (s.setV x b).i = s.i := rfl
@[simp] theorem State.setV_stack (x : RegIdx) (b : Byte) : (s.setV x b).stack = s.stack := rfl
@[simp] theorem State.setV_dt (x : RegIdx) (b : Byte) : (s.setV x b).dt = s.dt := rfl
@[simp] theorem State.setV_st (x : RegIdx) (b : Byte) : (s.setV x b).st = s.st := rfl
@[simp] theorem State.setV_ram (x : RegIdx) (b : Byte) : (s.setV x b).ram = s.ram := rfl
@[simp] theorem State.setV_fb (x : RegIdx) (b : Byte) : (s.setV x b).fb = s.fb := rfl
@[simp] theorem State.setV_halted (x : RegIdx) (b : Byte) : (s.setV x b).halted = s.halted := rfl
@[simp] theorem State.setV_faultCause (x : RegIdx) (b : Byte) : (s.setV x b).faultCause = s.faultCause := rfl
@[simp] theorem State.setV_faultOpcode (x : RegIdx) (b : Byte) : (s.setV x b).faultOpcode = s.faultOpcode := rfl
@[simp] theorem State.setV_faultPc (x : RegIdx) (b : Byte) : (s.setV x b).faultPc = s.faultPc := rfl
@[simp] theorem State.setV_config (x : RegIdx) (b : Byte) : (s.setV x b).config = s.config := rfl
@[simp] theorem State.setV_suppliedDraw (x : RegIdx) (b : Byte) : (s.setV x b).suppliedDraw = s.suppliedDraw := rfl
@[simp] theorem State.setV_draws (x : RegIdx) (b : Byte) : (s.setV x b).draws = s.draws := rfl

/-! ### `setI` -/

@[simp] theorem State.setI_v (w : Word) : (s.setI w).v = s.v := rfl
@[simp] theorem State.setI_pc (w : Word) : (s.setI w).pc = s.pc := rfl
@[simp] theorem State.setI_i (w : Word) : (s.setI w).i = w := rfl
@[simp] theorem State.setI_stack (w : Word) : (s.setI w).stack = s.stack := rfl
@[simp] theorem State.setI_dt (w : Word) : (s.setI w).dt = s.dt := rfl
@[simp] theorem State.setI_st (w : Word) : (s.setI w).st = s.st := rfl
@[simp] theorem State.setI_ram (w : Word) : (s.setI w).ram = s.ram := rfl
@[simp] theorem State.setI_fb (w : Word) : (s.setI w).fb = s.fb := rfl
@[simp] theorem State.setI_halted (w : Word) : (s.setI w).halted = s.halted := rfl
@[simp] theorem State.setI_faultCause (w : Word) : (s.setI w).faultCause = s.faultCause := rfl
@[simp] theorem State.setI_faultOpcode (w : Word) : (s.setI w).faultOpcode = s.faultOpcode := rfl
@[simp] theorem State.setI_faultPc (w : Word) : (s.setI w).faultPc = s.faultPc := rfl
@[simp] theorem State.setI_config (w : Word) : (s.setI w).config = s.config := rfl
@[simp] theorem State.setI_suppliedDraw (w : Word) : (s.setI w).suppliedDraw = s.suppliedDraw := rfl
@[simp] theorem State.setI_draws (w : Word) : (s.setI w).draws = s.draws := rfl

/-! ### `setStack` -/

@[simp] theorem State.setStack_v (l : List Word) : (s.setStack l).v = s.v := rfl
@[simp] theorem State.setStack_pc (l : List Word) : (s.setStack l).pc = s.pc := rfl
@[simp] theorem State.setStack_i (l : List Word) : (s.setStack l).i = s.i := rfl
@[simp] theorem State.setStack_stack (l : List Word) : (s.setStack l).stack = l := rfl
@[simp] theorem State.setStack_dt (l : List Word) : (s.setStack l).dt = s.dt := rfl
@[simp] theorem State.setStack_st (l : List Word) : (s.setStack l).st = s.st := rfl
@[simp] theorem State.setStack_ram (l : List Word) : (s.setStack l).ram = s.ram := rfl
@[simp] theorem State.setStack_fb (l : List Word) : (s.setStack l).fb = s.fb := rfl
@[simp] theorem State.setStack_halted (l : List Word) : (s.setStack l).halted = s.halted := rfl
@[simp] theorem State.setStack_faultCause (l : List Word) : (s.setStack l).faultCause = s.faultCause := rfl
@[simp] theorem State.setStack_faultOpcode (l : List Word) : (s.setStack l).faultOpcode = s.faultOpcode := rfl
@[simp] theorem State.setStack_faultPc (l : List Word) : (s.setStack l).faultPc = s.faultPc := rfl
@[simp] theorem State.setStack_config (l : List Word) : (s.setStack l).config = s.config := rfl
@[simp] theorem State.setStack_suppliedDraw (l : List Word) : (s.setStack l).suppliedDraw = s.suppliedDraw := rfl
@[simp] theorem State.setStack_draws (l : List Word) : (s.setStack l).draws = s.draws := rfl

/-! ### `setFb` -/

@[simp] theorem State.setFb_v (fb : Framebuffer) : (s.setFb fb).v = s.v := rfl
@[simp] theorem State.setFb_pc (fb : Framebuffer) : (s.setFb fb).pc = s.pc := rfl
@[simp] theorem State.setFb_i (fb : Framebuffer) : (s.setFb fb).i = s.i := rfl
@[simp] theorem State.setFb_stack (fb : Framebuffer) : (s.setFb fb).stack = s.stack := rfl
@[simp] theorem State.setFb_dt (fb : Framebuffer) : (s.setFb fb).dt = s.dt := rfl
@[simp] theorem State.setFb_st (fb : Framebuffer) : (s.setFb fb).st = s.st := rfl
@[simp] theorem State.setFb_ram (fb : Framebuffer) : (s.setFb fb).ram = s.ram := rfl
@[simp] theorem State.setFb_fb (fb : Framebuffer) : (s.setFb fb).fb = fb := rfl
@[simp] theorem State.setFb_halted (fb : Framebuffer) : (s.setFb fb).halted = s.halted := rfl
@[simp] theorem State.setFb_faultCause (fb : Framebuffer) : (s.setFb fb).faultCause = s.faultCause := rfl
@[simp] theorem State.setFb_faultOpcode (fb : Framebuffer) : (s.setFb fb).faultOpcode = s.faultOpcode := rfl
@[simp] theorem State.setFb_faultPc (fb : Framebuffer) : (s.setFb fb).faultPc = s.faultPc := rfl
@[simp] theorem State.setFb_config (fb : Framebuffer) : (s.setFb fb).config = s.config := rfl
@[simp] theorem State.setFb_suppliedDraw (fb : Framebuffer) : (s.setFb fb).suppliedDraw = s.suppliedDraw := rfl
@[simp] theorem State.setFb_draws (fb : Framebuffer) : (s.setFb fb).draws = s.draws := rfl

/-! ### `setRam` -/

@[simp] theorem State.setRam_v (m : Memory) : (s.setRam m).v = s.v := rfl
@[simp] theorem State.setRam_pc (m : Memory) : (s.setRam m).pc = s.pc := rfl
@[simp] theorem State.setRam_i (m : Memory) : (s.setRam m).i = s.i := rfl
@[simp] theorem State.setRam_stack (m : Memory) : (s.setRam m).stack = s.stack := rfl
@[simp] theorem State.setRam_dt (m : Memory) : (s.setRam m).dt = s.dt := rfl
@[simp] theorem State.setRam_st (m : Memory) : (s.setRam m).st = s.st := rfl
@[simp] theorem State.setRam_ram (m : Memory) : (s.setRam m).ram = m := rfl
@[simp] theorem State.setRam_fb (m : Memory) : (s.setRam m).fb = s.fb := rfl
@[simp] theorem State.setRam_halted (m : Memory) : (s.setRam m).halted = s.halted := rfl
@[simp] theorem State.setRam_faultCause (m : Memory) : (s.setRam m).faultCause = s.faultCause := rfl
@[simp] theorem State.setRam_faultOpcode (m : Memory) : (s.setRam m).faultOpcode = s.faultOpcode := rfl
@[simp] theorem State.setRam_faultPc (m : Memory) : (s.setRam m).faultPc = s.faultPc := rfl
@[simp] theorem State.setRam_config (m : Memory) : (s.setRam m).config = s.config := rfl
@[simp] theorem State.setRam_suppliedDraw (m : Memory) : (s.setRam m).suppliedDraw = s.suppliedDraw := rfl
@[simp] theorem State.setRam_draws (m : Memory) : (s.setRam m).draws = s.draws := rfl

/-! ### `setTimers` -/

@[simp] theorem State.setTimers_v (d e : Byte) : (s.setTimers d e).v = s.v := rfl
@[simp] theorem State.setTimers_pc (d e : Byte) : (s.setTimers d e).pc = s.pc := rfl
@[simp] theorem State.setTimers_i (d e : Byte) : (s.setTimers d e).i = s.i := rfl
@[simp] theorem State.setTimers_stack (d e : Byte) : (s.setTimers d e).stack = s.stack := rfl
@[simp] theorem State.setTimers_dt (d e : Byte) : (s.setTimers d e).dt = d := rfl
@[simp] theorem State.setTimers_st (d e : Byte) : (s.setTimers d e).st = e := rfl
@[simp] theorem State.setTimers_ram (d e : Byte) : (s.setTimers d e).ram = s.ram := rfl
@[simp] theorem State.setTimers_fb (d e : Byte) : (s.setTimers d e).fb = s.fb := rfl
@[simp] theorem State.setTimers_halted (d e : Byte) : (s.setTimers d e).halted = s.halted := rfl
@[simp] theorem State.setTimers_faultCause (d e : Byte) : (s.setTimers d e).faultCause = s.faultCause := rfl
@[simp] theorem State.setTimers_faultOpcode (d e : Byte) : (s.setTimers d e).faultOpcode = s.faultOpcode := rfl
@[simp] theorem State.setTimers_faultPc (d e : Byte) : (s.setTimers d e).faultPc = s.faultPc := rfl
@[simp] theorem State.setTimers_config (d e : Byte) : (s.setTimers d e).config = s.config := rfl
@[simp] theorem State.setTimers_suppliedDraw (d e : Byte) : (s.setTimers d e).suppliedDraw = s.suppliedDraw := rfl
@[simp] theorem State.setTimers_draws (d e : Byte) : (s.setTimers d e).draws = s.draws := rfl

/-! ### `supplyDraw` -/

@[simp] theorem State.supplyDraw_v (r : Option Byte) : (s.supplyDraw r).v = s.v := rfl
@[simp] theorem State.supplyDraw_pc (r : Option Byte) : (s.supplyDraw r).pc = s.pc := rfl
@[simp] theorem State.supplyDraw_i (r : Option Byte) : (s.supplyDraw r).i = s.i := rfl
@[simp] theorem State.supplyDraw_stack (r : Option Byte) : (s.supplyDraw r).stack = s.stack := rfl
@[simp] theorem State.supplyDraw_dt (r : Option Byte) : (s.supplyDraw r).dt = s.dt := rfl
@[simp] theorem State.supplyDraw_st (r : Option Byte) : (s.supplyDraw r).st = s.st := rfl
@[simp] theorem State.supplyDraw_ram (r : Option Byte) : (s.supplyDraw r).ram = s.ram := rfl
@[simp] theorem State.supplyDraw_fb (r : Option Byte) : (s.supplyDraw r).fb = s.fb := rfl
@[simp] theorem State.supplyDraw_halted (r : Option Byte) : (s.supplyDraw r).halted = s.halted := rfl
@[simp] theorem State.supplyDraw_faultCause (r : Option Byte) : (s.supplyDraw r).faultCause = s.faultCause := rfl
@[simp] theorem State.supplyDraw_faultOpcode (r : Option Byte) : (s.supplyDraw r).faultOpcode = s.faultOpcode := rfl
@[simp] theorem State.supplyDraw_faultPc (r : Option Byte) : (s.supplyDraw r).faultPc = s.faultPc := rfl
@[simp] theorem State.supplyDraw_config (r : Option Byte) : (s.supplyDraw r).config = s.config := rfl
@[simp] theorem State.supplyDraw_suppliedDraw (r : Option Byte) : (s.supplyDraw r).suppliedDraw = r := rfl
@[simp] theorem State.supplyDraw_draws (r : Option Byte) : (s.supplyDraw r).draws = s.draws := rfl

/-! ### `consumeDraw` -/

@[simp] theorem State.consumeDraw_v : (s.consumeDraw).v = s.v := rfl
@[simp] theorem State.consumeDraw_pc : (s.consumeDraw).pc = s.pc := rfl
@[simp] theorem State.consumeDraw_i : (s.consumeDraw).i = s.i := rfl
@[simp] theorem State.consumeDraw_stack : (s.consumeDraw).stack = s.stack := rfl
@[simp] theorem State.consumeDraw_dt : (s.consumeDraw).dt = s.dt := rfl
@[simp] theorem State.consumeDraw_st : (s.consumeDraw).st = s.st := rfl
@[simp] theorem State.consumeDraw_ram : (s.consumeDraw).ram = s.ram := rfl
@[simp] theorem State.consumeDraw_fb : (s.consumeDraw).fb = s.fb := rfl
@[simp] theorem State.consumeDraw_halted : (s.consumeDraw).halted = s.halted := rfl
@[simp] theorem State.consumeDraw_faultCause : (s.consumeDraw).faultCause = s.faultCause := rfl
@[simp] theorem State.consumeDraw_faultOpcode : (s.consumeDraw).faultOpcode = s.faultOpcode := rfl
@[simp] theorem State.consumeDraw_faultPc : (s.consumeDraw).faultPc = s.faultPc := rfl
@[simp] theorem State.consumeDraw_config : (s.consumeDraw).config = s.config := rfl
@[simp] theorem State.consumeDraw_suppliedDraw : (s.consumeDraw).suppliedDraw = none := rfl
@[simp] theorem State.consumeDraw_draws : (s.consumeDraw).draws =
    if s.suppliedDraw.isSome then s.draws else s.draws + 1 := rfl

/-! ### `enterFault` -/

@[simp] theorem enterFault_v (cause : FaultCause) (pc op : Word) : (enterFault cause pc op s).v = s.v := rfl
@[simp] theorem enterFault_pc (cause : FaultCause) (pc op : Word) : (enterFault cause pc op s).pc = s.pc := rfl
@[simp] theorem enterFault_i (cause : FaultCause) (pc op : Word) : (enterFault cause pc op s).i = s.i := rfl
@[simp] theorem enterFault_stack (cause : FaultCause) (pc op : Word) : (enterFault cause pc op s).stack = s.stack := rfl
@[simp] theorem enterFault_dt (cause : FaultCause) (pc op : Word) : (enterFault cause pc op s).dt = s.dt := rfl
@[simp] theorem enterFault_st (cause : FaultCause) (pc op : Word) : (enterFault cause pc op s).st = s.st := rfl
@[simp] theorem enterFault_ram (cause : FaultCause) (pc op : Word) : (enterFault cause pc op s).ram = s.ram := rfl
@[simp] theorem enterFault_fb (cause : FaultCause) (pc op : Word) : (enterFault cause pc op s).fb = s.fb := rfl
@[simp] theorem enterFault_halted (cause : FaultCause) (pc op : Word) : (enterFault cause pc op s).halted = true := rfl
@[simp] theorem enterFault_faultCause (cause : FaultCause) (pc op : Word) : (enterFault cause pc op s).faultCause = cause := rfl
@[simp] theorem enterFault_faultOpcode (cause : FaultCause) (pc op : Word) : (enterFault cause pc op s).faultOpcode = op := rfl
@[simp] theorem enterFault_faultPc (cause : FaultCause) (pc op : Word) : (enterFault cause pc op s).faultPc = pc := rfl
@[simp] theorem enterFault_config (cause : FaultCause) (pc op : Word) : (enterFault cause pc op s).config = s.config := rfl
@[simp] theorem enterFault_suppliedDraw (cause : FaultCause) (pc op : Word) : (enterFault cause pc op s).suppliedDraw = s.suppliedDraw := rfl
@[simp] theorem enterFault_draws (cause : FaultCause) (pc op : Word) : (enterFault cause pc op s).draws = s.draws := rfl

/-! ### `advancePc` -/

@[simp] theorem advancePc_v : (advancePc s).v = s.v := rfl
@[simp] theorem advancePc_pc : (advancePc s).pc = s.pc + 2 := rfl
@[simp] theorem advancePc_i : (advancePc s).i = s.i := rfl
@[simp] theorem advancePc_stack : (advancePc s).stack = s.stack := rfl
@[simp] theorem advancePc_dt : (advancePc s).dt = s.dt := rfl
@[simp] theorem advancePc_st : (advancePc s).st = s.st := rfl
@[simp] theorem advancePc_ram : (advancePc s).ram = s.ram := rfl
@[simp] theorem advancePc_fb : (advancePc s).fb = s.fb := rfl
@[simp] theorem advancePc_halted : (advancePc s).halted = s.halted := rfl
@[simp] theorem advancePc_faultCause : (advancePc s).faultCause = s.faultCause := rfl
@[simp] theorem advancePc_faultOpcode : (advancePc s).faultOpcode = s.faultOpcode := rfl
@[simp] theorem advancePc_faultPc : (advancePc s).faultPc = s.faultPc := rfl
@[simp] theorem advancePc_config : (advancePc s).config = s.config := rfl
@[simp] theorem advancePc_suppliedDraw : (advancePc s).suppliedDraw = s.suppliedDraw := rfl
@[simp] theorem advancePc_draws : (advancePc s).draws = s.draws := rfl

/-! ### Registers after a write (R20: each holds what was last written) -/

theorem getElem_set_reg (v : Vector Byte 16) (x k : RegIdx) (b : Byte) :
    (v.set x.val b x.isLt)[k] = if k = x then b else v[k] := by
  rw [Fin.getElem_fin, Vector.getElem_set]
  simp only [Fin.ext_iff, eq_comm]
  rfl

@[simp] theorem readReg_setV_self (x : RegIdx) (b : Byte) : readReg (s.setV x b) x = b := by
  rw [readReg, State.setV_v, getElem_set_reg, if_pos rfl]

theorem readReg_setV_of_ne {x k : RegIdx} (b : Byte) (h : k ≠ x) :
    readReg (s.setV x b) k = readReg s k := by
  rw [readReg, State.setV_v, getElem_set_reg, if_neg h, readReg]

/-- Result, then flag (R149): `VF` holds the flag, `V[x]` the result unless `x` is `VF`, the rest is as before. -/
theorem readReg_writeResultThenFlag (x k : RegIdx) (r : Byte) (f : Bool) :
    readReg (writeResultThenFlag s x r f) k =
      if k = vF then flagByte f else if k = x then r else readReg s k := by
  simp only [readReg, writeResultThenFlag, State.setV_v, getElem_set_reg]

theorem writeResultThenFlag_eq (x : RegIdx) (r : Byte) (f : Bool) :
    writeResultThenFlag s x r f = { s with v := (writeResultThenFlag s x r f).v } := rfl

/-! ### Stack (R28, R29) -/

theorem push_full {w : Word} (h : s.sp = s.config.stackDepth) : push w s = none := if_pos h

theorem push_room {w : Word} (h : s.sp ≠ s.config.stackDepth) :
    push w s = some (s.setStack (w :: s.stack)) := if_neg h

theorem pop_empty (h : s.stack = []) : pop s = none := by simp [pop, h]

theorem pop_cons {w : Word} {l : List Word} (h : s.stack = w :: l) :
    pop s = some (w, s.setStack l) := by simp [pop, h]

/-! ### Framebuffer (R170 to R172) -/

theorem isLit_toggle (fb : Framebuffer) (c d : FbCell) :
    (fb.toggle c).isLit d = if d = c then !fb.isLit c else fb.isLit d := by
  obtain ⟨cx, cy⟩ := c
  obtain ⟨dx, dy⟩ := d
  simp only [Framebuffer.toggle, Framebuffer.isLit, Fin.getElem_fin, Vector.getElem_set,
    FbCell.mk.injEq]
  by_cases hy : cy = dy
  · subst hy
    by_cases hx : cx = dx
    · subst hx; simp
    · simp [hx, Ne.symm hx, Fin.val_inj]
  · simp [hy, Ne.symm hy, Fin.val_inj]

@[simp] theorem isLit_cleared (c : FbCell) : Framebuffer.cleared.isLit c = false := by
  simp [Framebuffer.cleared, Framebuffer.isLit]

/-- Two grids with the same lit cells are the same grid. -/
theorem framebuffer_ext {fb gb : Framebuffer} (h : ∀ c, fb.isLit c = gb.isLit c) : fb = gb := by
  ext y hy x hx
  have := h ⟨⟨x, hx⟩, ⟨y, hy⟩⟩
  simpa [Framebuffer.isLit] using congrArg (· = true) this

theorem fbCell?_eq_some {x y : Nat} {c : FbCell} :
    fbCell? x y = some c ↔ c.x.val = x ∧ c.y.val = y := by
  obtain ⟨cx, cy⟩ := c
  unfold fbCell?
  split <;> rename_i h
  · simp only [Option.some.injEq, FbCell.mk.injEq, Fin.ext_iff]
    exact ⟨fun ⟨a, b⟩ => ⟨a.symm, b.symm⟩, fun ⟨a, b⟩ => ⟨a.symm, b.symm⟩⟩
  · simp only [reduceCtorEq, false_iff]
    rintro ⟨rfl, rfl⟩
    exact h ⟨cx.isLt, cy.isLt⟩

theorem fbCell?_eq_none {x y : Nat} : fbCell? x y = none ↔ 63 < x ∨ 31 < y := by
  unfold fbCell?
  split <;> rename_i h <;> simp only [fbWidth, fbHeight] at h <;> simp <;> omega

/-- Every cause has its own code (R201). -/
theorem faultCode_injective : Function.Injective faultCode := by
  intro a b h
  cases a <;> cases b <;> first | rfl | exact absurd h (by decide)

end Sys2Proof.Machine
end

