-- ==== Sys2Proof/Laws/Draw.lean ====
section
/-! SUPPORT. The two phases of `DXYN`: what the scan of a sprite answers (R175, R178), and what toggling distinct cells does (R177). -/

namespace Sys2Proof.Machine

/-! ### Toggling (R177) -/

/-- Toggling distinct cells flips exactly those. -/
theorem isLit_toggleAll {cells : List FbCell} (h : cells.Nodup) (fb : Framebuffer) (d : FbCell) :
    (toggleAll cells fb).1.isLit d = if d ∈ cells then !fb.isLit d else fb.isLit d := by
  induction cells generalizing fb with
  | nil => simp [toggleAll]
  | cons c cs ih =>
    obtain ⟨hc, hcs⟩ := List.nodup_cons.1 h
    simp only [toggleAll, ih hcs, isLit_toggle, List.mem_cons]
    by_cases hd : d = c
    · subst hd; simp [hc]
    · simp [hd]

/-- The flag says that some toggled cell was lit before the instruction. -/
theorem toggleAll_flag {cells : List FbCell} (h : cells.Nodup) (fb : Framebuffer) :
    (toggleAll cells fb).2 = true ↔ ∃ c ∈ cells, fb.isLit c = true := by
  induction cells generalizing fb with
  | nil => simp [toggleAll]
  | cons c cs ih =>
    obtain ⟨hc, hcs⟩ := List.nodup_cons.1 h
    simp only [toggleAll, Bool.or_eq_true, ih hcs, isLit_toggle, List.exists_mem_cons_iff]
    refine or_congr_right (exists_congr fun d => and_congr_right fun hd => ?_)
    rw [if_neg (by rintro rfl; exact hc hd)]

/-! ### Scanning one row (R178) -/

theorem scanRow_ok {b : Byte} {ox y : Nat} {js : List Nat} {cs : List FbCell}
    (h : scanRow b ox y js = .ok cs) :
    (∀ j ∈ js, spritePixel b j = true → ox + j ≤ 63 ∧ y ≤ 31) ∧
    ∀ c : FbCell, c ∈ cs ↔ ∃ j ∈ js, spritePixel b j = true ∧ c.x.val = ox + j ∧ c.y.val = y := by
  induction js generalizing cs with
  | nil => cases h; simp
  | cons j js ih =>
    rw [scanRow] at h
    split_ifs at h with hj
    · split at h <;> try cases h
      rename_i d ds hd hds
      obtain ⟨h1, h2⟩ := ih hds
      obtain ⟨hx, hy⟩ := fbCell?_eq_some.1 hd
      refine ⟨?_, fun c => ?_⟩
      · intro k hk hp
        rcases List.mem_cons.1 hk with rfl | hk
        · have := d.x.isLt; have := d.y.isLt; omega
        · exact h1 k hk hp
      · rw [List.mem_cons, h2, List.exists_mem_cons_iff]
        refine or_congr_left ⟨fun e => e ▸ ⟨hj, hx, hy⟩, fun ⟨_, e1, e2⟩ => ?_⟩
        obtain ⟨⟨cx, _⟩, ⟨cy, _⟩⟩ := c
        obtain ⟨⟨dx, _⟩, ⟨dy, _⟩⟩ := d
        simp_all
    · obtain ⟨h1, h2⟩ := ih h
      refine ⟨?_, fun c => ?_⟩
      · intro k hk hp
        rcases List.mem_cons.1 hk with rfl | hk
        · exact absurd hp hj
        · exact h1 k hk hp
      · rw [h2, List.exists_mem_cons_iff]
        simp [hj]

theorem scanRow_error {b : Byte} {ox y : Nat} {js : List Nat} {e : FaultCause}
    (h : scanRow b ox y js = .error e) :
    e = .framebufferOutOfRange ∧ ∃ j ∈ js, spritePixel b j = true ∧ ¬(ox + j ≤ 63 ∧ y ≤ 31) := by
  induction js with
  | nil => cases h
  | cons j js ih =>
    rw [scanRow] at h
    split_ifs at h with hj
    · split at h
      · rename_i hd
        cases h
        have := fbCell?_eq_none.1 hd
        exact ⟨rfl, j, by simp, hj, by omega⟩
      · rename_i _ _ _ hds
        cases h
        obtain ⟨h1, k, hk, hp⟩ := ih hds
        exact ⟨h1, k, by simp [hk], hp⟩
      · cases h
    · obtain ⟨h1, k, hk, hp⟩ := ih h
      exact ⟨h1, k, by simp [hk], hp⟩

theorem scanRow_nodup {b : Byte} {ox y : Nat} {js : List Nat} (hjs : js.Nodup) {cs : List FbCell}
    (h : scanRow b ox y js = .ok cs) : cs.Nodup := by
  induction js generalizing cs with
  | nil => cases h; simp
  | cons j js ih =>
    obtain ⟨hj, hjs⟩ := List.nodup_cons.1 hjs
    rw [scanRow] at h
    split_ifs at h
    · split at h <;> try cases h
      rename_i d ds hd hds
      refine List.nodup_cons.2 ⟨fun hm => ?_, ih hjs hds⟩
      obtain ⟨k, hk, -, hx, -⟩ := ((scanRow_ok hds).2 d).1 hm
      have := (fbCell?_eq_some.1 hd).1
      exact hj (by rw [show j = k by omega]; exact hk)
    · exact ih hjs h

/-! ### Scanning the rows -/

/-- Sprite row `row` drawn at the origin `(ox, oy)`: its byte can be read and its set bits lie in the grid. -/
def rowFits (s : State) (ox oy row : Nat) : Prop :=
  s.i.toNat + row ≤ 4095 ∧ ∀ j < 8, spriteBit s row j → ox + j ≤ 63 ∧ oy + row ≤ 31

theorem spritePixel_iff {s : State} {row j : Nat} :
    spritePixel (s.ram.byteAt (s.i.toNat + row)) j = true ↔ spriteBit s row j := Iff.rfl

theorem scanRows_ok {s : State} {ox oy : Nat} {rows : List Nat} {cs : List FbCell}
    (h : scanRows s ox oy rows = .ok cs) :
    (∀ row ∈ rows, rowFits s ox oy row) ∧
    ∀ c : FbCell, c ∈ cs ↔ ∃ row ∈ rows, ∃ j < 8, spriteBit s row j ∧
      c.x.val = ox + j ∧ c.y.val = oy + row := by
  induction rows generalizing cs with
  | nil => cases h; simp
  | cons row rows ih =>
    rw [scanRows] at h
    split at h
    · cases h
    · rename_i b hb
      have hr : s.i.toNat + row < 4096 := by
        by_contra hc
        rw [spriteRowAddress, Memory.read_eq_none.2 (by omega)] at hb
        cases hb
      rw [spriteRowAddress, Memory.read_eq hr] at hb
      cases hb
      split at h <;> try cases h
      rename_i ds es hds hes
      obtain ⟨a1, a2⟩ := scanRow_ok hds
      obtain ⟨b1, b2⟩ := ih hes
      refine ⟨fun r hr' => ?_, fun c => ?_⟩
      · rcases List.mem_cons.1 hr' with rfl | hr'
        · exact ⟨by omega, fun j hj hp => a1 j (by simpa using hj) hp⟩
        · exact b1 r hr'
      · rw [List.mem_append, a2, b2, List.exists_mem_cons_iff]
        simp only [List.mem_range, spritePixel_iff]

/-- The first failing access in scan order decides the cause (R178). -/
theorem scanRows_error {s : State} {ox oy : Nat} {rows : List Nat} {e : FaultCause}
    (h : scanRows s ox oy rows = .error e) :
    ∃ before row after, rows = before ++ row :: after ∧ (∀ r ∈ before, rowFits s ox oy r) ∧
      (e = .spriteReadOutOfRange ∧ 4095 < s.i.toNat + row ∨
       e = .framebufferOutOfRange ∧ s.i.toNat + row ≤ 4095 ∧
        ∃ j < 8, spriteBit s row j ∧ ¬(ox + j ≤ 63 ∧ oy + row ≤ 31)) := by
  induction rows with
  | nil => cases h
  | cons row rows ih =>
    rw [scanRows] at h
    split at h
    · rename_i hb
      cases h
      have := Memory.read_eq_none.1 hb
      exact ⟨[], row, rows, rfl, by simp, .inl ⟨rfl, by rw [spriteRowAddress] at this; omega⟩⟩
    · rename_i b hb
      have hr : s.i.toNat + row < 4096 := by
        by_contra hc
        rw [spriteRowAddress, Memory.read_eq_none.2 (by omega)] at hb
        cases hb
      rw [spriteRowAddress, Memory.read_eq hr] at hb
      cases hb
      split at h
      · rename_i hds
        cases h
        obtain ⟨rfl, j, hj, hp, hf⟩ := scanRow_error hds
        exact ⟨[], row, rows, rfl, by simp,
          .inr ⟨rfl, by omega, j, by simpa using hj, hp, hf⟩⟩
      · rename_i ds e' hds hes
        cases h
        obtain ⟨before, r, after, rfl, hb, hc⟩ := ih hes
        refine ⟨row :: before, r, after, rfl, ?_, hc⟩
        intro r' hr'
        rcases List.mem_cons.1 hr' with rfl | hr'
        · exact ⟨by omega, fun j hj hp => (scanRow_ok hds).1 j (by simpa using hj) hp⟩
        · exact hb r' hr'
      · cases h

theorem scanRows_nodup {s : State} {ox oy : Nat} {rows : List Nat} (hrows : rows.Nodup)
    {cs : List FbCell} (h : scanRows s ox oy rows = .ok cs) : cs.Nodup := by
  induction rows generalizing cs with
  | nil => cases h; simp
  | cons row rows ih =>
    obtain ⟨hrow, hrows⟩ := List.nodup_cons.1 hrows
    rw [scanRows] at h
    split at h
    · cases h
    · split at h <;> try cases h
      rename_i ds es hds hes
      refine List.nodup_append.2 ⟨scanRow_nodup List.nodup_range hds, ih hrows hes, ?_⟩
      rintro c hc d hd rfl
      obtain ⟨_, _, _, _, h1⟩ := ((scanRow_ok hds).2 c).1 hc
      obtain ⟨r, hr, _, _, _, _, h2⟩ := ((scanRows_ok hes).2 c).1 hd
      exact hrow (by rw [show row = r by omega]; exact hr)

/-! ### The sprite of `DXYN` -/

/-- The scan succeeds exactly when every row fits, and then lists each covered cell once. -/
theorem scanSprite_ok {s : State} {x y : RegIdx} {n : Nat} {cs : List FbCell}
    (h : scanSprite s x y n = .ok cs) :
    (∀ row < n, spriteRowFits s x y row) ∧ cs.Nodup ∧ ∀ c, c ∈ cs ↔ drawCovers s x y n c := by
  obtain ⟨h1, h2⟩ := scanRows_ok h
  refine ⟨fun row hr => h1 row (by simpa using hr), scanRows_nodup List.nodup_range h, fun c => ?_⟩
  rw [h2]
  simp only [List.mem_range]
  rfl

theorem scanSprite_error {s : State} {x y : RegIdx} {n : Nat} {e : FaultCause}
    (h : scanSprite s x y n = .error e) :
    ∃ row < n, (∀ r < row, spriteRowFits s x y r) ∧
      (e = .spriteReadOutOfRange ∧ 4095 < s.i.toNat + row ∨
       e = .framebufferOutOfRange ∧ s.i.toNat + row ≤ 4095 ∧
        ∃ j < 8, spriteBit s row j ∧
          ¬(s.v[x].toNat % 64 + j ≤ 63 ∧ s.v[y].toNat % 64 % 32 + row ≤ 31)) := by
  obtain ⟨before, row, after, hl, hb, hc⟩ := scanRows_error h
  have hlen : before.length < n := by
    have := congrArg List.length hl
    simp only [List.length_range, List.length_append, List.length_cons] at this
    omega
  have hget : ∀ k (hk : k < n), (before ++ row :: after)[k]? = some k := by
    intro k hk; rw [← hl]; simp [hk]
  have hrow : row = before.length := by
    have := hget before.length hlen
    simpa using this
  subst hrow
  refine ⟨before.length, hlen, fun r hr => hb r ?_, hc⟩
  have := hget r (by omega)
  rw [List.getElem?_append_left hr] at this
  exact List.mem_of_getElem? this

theorem scanSprite_of_fits {s : State} {x y : RegIdx} {n : Nat}
    (h : ∀ row < n, spriteRowFits s x y row) : ∃ cs, scanSprite s x y n = .ok cs := by
  cases hs : scanSprite s x y n with
  | ok cs => exact ⟨cs, rfl⟩
  | error e =>
    obtain ⟨row, hr, -, ⟨-, h1⟩ | ⟨-, -, j, hj, hp, hf⟩⟩ := scanSprite_error hs
    · exact absurd (h row hr).1 (by omega)
    · exact absurd ((h row hr).2 j hj hp) hf

/-! ### What a scan depends on -/

theorem scanRows_congr {s s' : State} (hi : s'.i = s.i) (hr : s'.ram = s.ram) (ox oy : Nat)
    (rows : List Nat) : scanRows s' ox oy rows = scanRows s ox oy rows := by
  induction rows with
  | nil => rfl
  | cons r rs ih => simp only [scanRows, spriteRowAddress, hi, hr, ih]

/-- The scan depends on `I`, RAM and the two operand registers alone. -/
theorem scanSprite_congr {s s' : State} {x y : RegIdx} (hi : s'.i = s.i) (hr : s'.ram = s.ram)
    (hx : s'.v[x] = s.v[x]) (hy : s'.v[y] = s.v[y]) (n : Nat) :
    scanSprite s' x y n = scanSprite s x y n := by
  simp only [scanSprite, originX, originY, readReg, hx, hy, scanRows_congr hi hr]

end Sys2Proof.Machine
end

