-- ==== Sys2Proof/Laws/Exec.lean ====
section
/-! SUPPORT. What each meaning answers, as an equation about `exec`; a proof about an instruction cites its equation and unfolds nothing. -/

namespace Sys2Proof.Machine

variable (s : State)

/-! ### Control transfer -/

theorem exec_ret_of_cons {w : Word} {l : List Word} (h : s.stack = w :: l) :
    exec .ret s = .next ((s.setStack l).setPc w) := by
  simp [exec, execRet, pop_cons s h]

theorem exec_ret_of_empty (h : s.stack = []) :
    exec .ret s = .next (enterFault .stackUnderflow (s.pc - 2) 0x00EE#16 s) := by
  simp [exec, execRet, pop_empty s h, raiseFault, encode]

theorem exec_jp (nnn : Addr12) : exec (.jp nnn) s = .next (s.setPc (nnn.setWidth 16)) := rfl

theorem exec_call_of_room (nnn : Addr12) (h : s.sp ≠ s.config.stackDepth) :
    exec (.call nnn) s = .next ((s.setStack (s.pc :: s.stack)).setPc (nnn.setWidth 16)) := by
  simp [exec, execCall, push_room s h, addressOperand]

theorem exec_call_of_full (nnn : Addr12) (h : s.sp = s.config.stackDepth) :
    exec (.call nnn) s = .next (enterFault .stackOverflow (s.pc - 2) (0x2#4 ++ nnn) s) := by
  simp [exec, execCall, push_full s h, raiseFault, encode]

theorem exec_jpV0 (nnn : Addr12) :
    exec (.jpV0 nnn) s = .next (s.setPc (s.v[v0].setWidth 16 + nnn.setWidth 16)) := rfl

/-! ### Skips -/

theorem skipIf_eq (c : Bool) : skipIf c s = s.setPc (if c then s.pc + 2 else s.pc) := by
  cases c <;> rfl

theorem exec_seImm (x : RegIdx) (nn : Byte) :
    exec (.seImm x nn) s = .next (s.setPc (if s.v[x] = nn then s.pc + 2 else s.pc)) := by
  simp only [exec, execSeImm, skipIf_eq, readReg, beq_iff_eq]

theorem exec_sneImm (x : RegIdx) (nn : Byte) :
    exec (.sneImm x nn) s = .next (s.setPc (if s.v[x] ≠ nn then s.pc + 2 else s.pc)) := by
  simp only [exec, execSneImm, skipIf_eq, readReg, bne_iff_ne]

theorem exec_seReg (x y : RegIdx) :
    exec (.seReg x y) s = .next (s.setPc (if s.v[x] = s.v[y] then s.pc + 2 else s.pc)) := by
  simp only [exec, execSeReg, skipIf_eq, readReg, beq_iff_eq]

theorem exec_sneReg (x y : RegIdx) :
    exec (.sneReg x y) s = .next (s.setPc (if s.v[x] ≠ s.v[y] then s.pc + 2 else s.pc)) := by
  simp only [exec, execSneReg, skipIf_eq, readReg, bne_iff_ne]

/-! ### Register load and ALU -/

theorem exec_ldImm (x : RegIdx) (nn : Byte) : exec (.ldImm x nn) s = .next (s.setV x nn) := rfl

theorem exec_addImm (x : RegIdx) (nn : Byte) :
    exec (.addImm x nn) s = .next (s.setV x (s.v[x] + nn)) := rfl

theorem exec_ldReg (x y : RegIdx) : exec (.ldReg x y) s = .next (s.setV x s.v[y]) := rfl

theorem exec_orReg (x y : RegIdx) : exec (.orReg x y) s = .next (s.setV x (s.v[x] ||| s.v[y])) := rfl

theorem exec_andReg (x y : RegIdx) : exec (.andReg x y) s = .next (s.setV x (s.v[x] &&& s.v[y])) := rfl

theorem exec_xorReg (x y : RegIdx) : exec (.xorReg x y) s = .next (s.setV x (s.v[x] ^^^ s.v[y])) := rfl

theorem exec_addReg (x y : RegIdx) :
    exec (.addReg x y) s =
      .next (writeResultThenFlag s x (s.v[x] + s.v[y]) (carryFlag s.v[x] s.v[y])) := rfl

theorem exec_subReg (x y : RegIdx) :
    exec (.subReg x y) s =
      .next (writeResultThenFlag s x (s.v[x] - s.v[y]) (greaterFlag s.v[x] s.v[y])) := rfl

theorem exec_shrReg (x y : RegIdx) :
    exec (.shrReg x y) s =
      .next (enterFault .unimplementedOpcode (s.pc - 2) (0x8#4 ++ nibble x ++ nibble y ++ 0x6#4) s) := rfl

theorem exec_subnReg (x y : RegIdx) :
    exec (.subnReg x y) s =
      .next (writeResultThenFlag s x (s.v[y] - s.v[x]) (greaterFlag s.v[y] s.v[x])) := rfl

/-! ### Index and random -/

theorem exec_ldI (nnn : Addr12) : exec (.ldI nnn) s = .next (s.setI (nnn.setWidth 16)) := rfl

theorem exec_rnd (x : RegIdx) (nn : Byte) :
    exec (.rnd x nn) s = .next (s.consumeDraw.setV x (nextDraw s &&& nn)) := rfl

/-! ### Display -/

theorem exec_cls : exec .cls s = .next (s.setFb Framebuffer.cleared) := rfl

theorem exec_drw_of_ok {x y : RegIdx} {n : Nat} {cs : List FbCell} (h : scanSprite s x y n = .ok cs) :
    exec (.drw x y n) s =
      .next ((s.setFb (toggleAll cs s.fb).1).setV vF (flagByte (toggleAll cs s.fb).2)) := by
  simp only [exec, execDrw, h]

theorem exec_drw_of_error {x y : RegIdx} {n : Nat} {e : FaultCause}
    (h : scanSprite s x y n = .error e) :
    exec (.drw x y n) s =
      .next (enterFault e (s.pc - 2) (0xD#4 ++ nibble x ++ nibble y ++ BitVec.ofNat 4 n) s) := by
  simp only [exec, execDrw, h]; rfl

/-! ### Reserved classes -/

theorem reservedWord_noop (i : Instr) (h : s.config.efPolicy = .noop) : reservedWord i s = .next s := by
  simp only [reservedWord, h]

theorem reservedWord_fault (i : Instr) (h : s.config.efPolicy = .fault) :
    reservedWord i s = .next (enterFault .unimplementedOpcode (s.pc - 2) (encode i) s) := by
  simp only [reservedWord, h, raiseFault]

theorem exec_rsve (bits : Addr12) : exec (.rsve bits) s = reservedWord (.rsve bits) s := rfl

theorem exec_rsvf (bits : Addr12) : exec (.rsvf bits) s = reservedWord (.rsvf bits) s := rfl

end Sys2Proof.Machine
end

