-- ==== Sys2Proof/Laws/PerInstr.lean ====
section
/-! SUPPORT. Statements made once for each constructor of `Instr`. -/

namespace Sys2Proof.Laws.RowMatch

/-- The word an instruction is encoded to matches its own row of the opcode map: `op & mask = match` (R76). -/
def Statement (i : Instr) : Prop := encode i &&& (opcodeRowOf i).mask = (opcodeRowOf i).pattern

theorem cls : Statement .cls := rfl

theorem ret : Statement .ret := rfl

theorem jp (nnn : Addr12) : Statement (.jp nnn) := by
  rw [Statement, encode, opcodeRowOf, mask_class, opClass_nnn]; decide

theorem call (nnn : Addr12) : Statement (.call nnn) := by
  rw [Statement, encode, opcodeRowOf, mask_class, opClass_nnn]; decide

theorem seImm (x : RegIdx) (nn : Byte) : Statement (.seImm x nn) := by
  rw [Statement, encode, opcodeRowOf, mask_class, opClass_xnn]; decide

theorem sneImm (x : RegIdx) (nn : Byte) : Statement (.sneImm x nn) := by
  rw [Statement, encode, opcodeRowOf, mask_class, opClass_xnn]; decide

theorem seReg (x y : RegIdx) : Statement (.seReg x y) := by
  rw [Statement, encode, opcodeRowOf, mask_class_nibble, opClass_xyn, fieldN_xyn]; decide

theorem ldImm (x : RegIdx) (nn : Byte) : Statement (.ldImm x nn) := by
  rw [Statement, encode, opcodeRowOf, mask_class, opClass_xnn]; decide

theorem addImm (x : RegIdx) (nn : Byte) : Statement (.addImm x nn) := by
  rw [Statement, encode, opcodeRowOf, mask_class, opClass_xnn]; decide

theorem ldReg (x y : RegIdx) : Statement (.ldReg x y) := by
  rw [Statement, encode, opcodeRowOf, mask_class_nibble, opClass_xyn, fieldN_xyn]; decide

theorem orReg (x y : RegIdx) : Statement (.orReg x y) := by
  rw [Statement, encode, opcodeRowOf, mask_class_nibble, opClass_xyn, fieldN_xyn]; decide

theorem andReg (x y : RegIdx) : Statement (.andReg x y) := by
  rw [Statement, encode, opcodeRowOf, mask_class_nibble, opClass_xyn, fieldN_xyn]; decide

theorem xorReg (x y : RegIdx) : Statement (.xorReg x y) := by
  rw [Statement, encode, opcodeRowOf, mask_class_nibble, opClass_xyn, fieldN_xyn]; decide

theorem addReg (x y : RegIdx) : Statement (.addReg x y) := by
  rw [Statement, encode, opcodeRowOf, mask_class_nibble, opClass_xyn, fieldN_xyn]; decide

theorem subReg (x y : RegIdx) : Statement (.subReg x y) := by
  rw [Statement, encode, opcodeRowOf, mask_class_nibble, opClass_xyn, fieldN_xyn]; decide

theorem shrReg (x y : RegIdx) : Statement (.shrReg x y) := by
  rw [Statement, encode, opcodeRowOf, mask_class_nibble, opClass_xyn, fieldN_xyn]; decide

theorem subnReg (x y : RegIdx) : Statement (.subnReg x y) := by
  rw [Statement, encode, opcodeRowOf, mask_class_nibble, opClass_xyn, fieldN_xyn]; decide

theorem sneReg (x y : RegIdx) : Statement (.sneReg x y) := by
  rw [Statement, encode, opcodeRowOf, mask_class_nibble, opClass_xyn, fieldN_xyn]; decide

theorem ldI (nnn : Addr12) : Statement (.ldI nnn) := by
  rw [Statement, encode, opcodeRowOf, mask_class, opClass_nnn]; decide

theorem jpV0 (nnn : Addr12) : Statement (.jpV0 nnn) := by
  rw [Statement, encode, opcodeRowOf, mask_class, opClass_nnn]; decide

theorem rnd (x : RegIdx) (nn : Byte) : Statement (.rnd x nn) := by
  rw [Statement, encode, opcodeRowOf, mask_class, opClass_xnn]; decide

theorem drw (x y : RegIdx) (n : Nat) : Statement (.drw x y n) := by
  rw [Statement, encode, opcodeRowOf, mask_class, opClass_xyn]; decide

theorem rsve (nnn : Addr12) : Statement (.rsve nnn) := by
  rw [Statement, encode, opcodeRowOf, mask_class, opClass_nnn]; decide

theorem rsvf (nnn : Addr12) : Statement (.rsvf nnn) := by
  rw [Statement, encode, opcodeRowOf, mask_class, opClass_nnn]; decide

end Sys2Proof.Laws.RowMatch
end

