-- ==== Sys2Proof/Laws/Step.lean ====
section
/-! SUPPORT. The cases of a step (R105), one lemma each, and the word a step runs after `withFetchWord`. -/

namespace Sys2Proof.Machine

variable {s : State}

theorem step_of_halted (h : s.halted = true) : step s = .fault (.halted s.faultCause) := by
  simp [step, cycle, h]

theorem step_of_fetch_none (h : s.halted = false) (hf : fetch s = none) :
    step s = .next (enterFault .fetchOutOfRange s.pc 0x0000#16 s) := by
  simp [step, cycle, h, hf]

theorem step_of_fetch_some (h : s.halted = false) {op : Word} (hf : fetch s = some op) :
    step s = runWord op s := by
  simp [step, cycle, h, hf]

theorem runWord_of_error {op : Word} {e : DecodeError} (h : decode op = .error e) :
    runWord op s = .next (enterFault .invalidOpcode s.pc op (advancePc s)) := by
  simp [runWord, h]

theorem runWord_of_ok {op : Word} {i : Instr} (h : decode op = .ok i) :
    runWord op s = exec i (advancePc s) := by
  simp [runWord, h]

/-- Everything a step of a running core can be. -/
theorem step_cases (h : s.halted = false) :
    (fetch s = none ∧ step s = .next (enterFault .fetchOutOfRange s.pc 0x0000#16 s)) ∨
    (∃ op e, fetch s = some op ∧ decode op = .error e ∧
      step s = .next (enterFault .invalidOpcode s.pc op (advancePc s))) ∨
    (∃ op i, fetch s = some op ∧ decode op = .ok i ∧ step s = exec i (advancePc s)) := by
  cases hf : fetch s with
  | none => exact .inl ⟨rfl, step_of_fetch_none h hf⟩
  | some op =>
    cases hd : decode op with
    | error e => exact .inr (.inl ⟨op, e, rfl, hd, (step_of_fetch_some h hf).trans (runWord_of_error hd)⟩)
    | ok i => exact .inr (.inr ⟨op, i, rfl, hd, (step_of_fetch_some h hf).trans (runWord_of_ok hd)⟩)

/-- The fetch address is `pc - 2` once `pc` is advanced, whatever it was. -/
@[simp] theorem advancePc_pc_sub_two : (advancePc s).pc - 2 = s.pc := by
  rw [advancePc_pc, BitVec.add_sub_cancel]

theorem fetch_placeWord (w : Word) (h : s.ram.wf) : fetch (placeWord w s) = some w := by
  have hp : (placeWord w s).pc.toNat ≤ 4094 := by
    simp only [placeWord]
    split
    · rename_i hc; simp only [ramSize] at hc; omega
    · decide
  rw [fetch_eq_some hp]
  have hw := Memory.wf_write h (addr := (placeWord w s).pc.toNat) (by omega) (highByte w)
  have h0 : (placeWord w s).ram.byteAt (placeWord w s).pc.toNat = highByte w := by
    change ((s.ram.write (placeWord w s).pc.toNat (highByte w)).write
      ((placeWord w s).pc.toNat + 1) (lowByte w)).byteAt _ = _
    rw [Memory.byteAt_write_of_ne _ (by omega), Memory.byteAt_write_self h]
  have h1 : (placeWord w s).ram.byteAt ((placeWord w s).pc.toNat + 1) = lowByte w :=
    Memory.byteAt_write_self hw _ _
  rw [h0, h1, wordOfBytes_high_low]

/-- The next step after `withFetchWord` runs that word. -/
theorem step_withFetchWord (nbits w : Nat) (h : s.ram.wf) :
    step (s.withFetchWord nbits w) = runWord (tableWord nbits w) (s.withFetchWord nbits w) :=
  step_of_fetch_some rfl (fetch_placeWord _ h)

/-- `load` refuses above 3584 bytes and copies up to there (R228). -/
theorem load_of_le {bytes : List Byte} (h : bytes.length ≤ 3584) :
    load bytes s = (s.setRam (s.ram.writeAll programBase bytes), .ok) := if_pos h

theorem load_of_gt {bytes : List Byte} (h : 3584 < bytes.length) :
    load bytes s = (s, .loadOverflow) := if_neg (by simp only [maxLoad]; omega)

/-- A load keeps the canonical form of RAM. -/
theorem load_keeps_wf (bytes : List Byte) (h : s.ram.wf) : ((load bytes s).1).ram.wf := by
  by_cases hl : bytes.length ≤ 3584
  · rw [load_of_le hl]
    exact Memory.wf_writeAll h (by simp only [programBase]; omega)
  · rw [load_of_gt (by omega)]
    exact h

/-! ### What the host gets from a step (R110, R227) -/

/-- The draw of the step is not in what the fetch reads. -/
@[simp] theorem fetch_supplyDraw (r : Option Byte) : fetch (s.supplyDraw r) = fetch s := rfl

@[simp] theorem supplyDraw_supplyDraw (q r : Option Byte) :
    (s.supplyDraw q).supplyDraw r = s.supplyDraw r := rfl

@[simp] theorem supplyDraw_suppliedDraw_self : s.supplyDraw s.suppliedDraw = s := rfl

@[simp] theorem advancePc_supplyDraw (r : Option Byte) :
    advancePc (s.supplyDraw r) = (advancePc s).supplyDraw r := rfl

@[simp] theorem enterFault_supplyDraw (cause : FaultCause) (pc op : Word) (r : Option Byte) :
    enterFault cause pc op (s.supplyDraw r) = (enterFault cause pc op s).supplyDraw r := rfl

/-- The draw that `CXNN` takes is the one the step was given. -/
@[simp] theorem nextDraw_supplyDraw (r : Byte) : nextDraw (s.supplyDraw (some r)) = r := rfl

theorem stepOp_of_next {r : Byte} {t : State} (h : step (s.supplyDraw (some r)) = .next t) :
    stepOp r s = some (t.supplyDraw s.suppliedDraw, if t.halted then t.faultCause else .ok) := by
  simp only [stepOp, stepWithDraw, h]; rfl

theorem stepOp_of_halted (r : Byte) (h : s.halted = true) : stepOp r s = some (s, s.faultCause) := by
  simp only [stepOp, stepWithDraw, step_of_halted (s := s.supplyDraw (some r)) h,
    State.supplyDraw_faultCause]

/-- The host's step is `stepOp` with its result. -/
theorem performHostOp_step {r : Byte} {t : State} {res : HostResult} :
    performHostOp (.step r) s = some (t, res) ↔ ∃ c, stepOp r s = some (t, c) ∧ res = .stepped c := by
  simp only [performHostOp, Option.map_eq_some_iff, Prod.exists, Prod.mk.injEq]
  exact ⟨fun ⟨_, c, h, h1, h2⟩ => ⟨c, h1 ▸ h, h2.symm⟩, fun ⟨c, h, h1⟩ => ⟨t, c, h, rfl, h1.symm⟩⟩

/-- A run goes on from the next state. -/
theorem run_of_next (M : Host.Core) (k : Nat) {a b : M.State} (h : M.step a = .next b) :
    M.run (k + 1) a = M.run k b := by
  simp only [Host.Core.run, h]

/-! ### How an instruction ends: it completes and leaves the status fields alone, or it raises one fault (R104, R201) -/

theorem stack_cases (s : State) : s.stack = [] ∨ ∃ w l, s.stack = w :: l := by
  cases s.stack with
  | nil => exact .inl rfl
  | cons w l => exact .inr ⟨w, l, rfl⟩

/-- The cause an instruction raises, if any, read off its operands and the state. -/
def raisedCause (i : Instr) (s : State) : FaultCause → Prop
  | .unimplementedOpcode =>
    (∃ x y, i = .shrReg x y) ∨ s.config.efPolicy = .fault ∧ ∃ b, i = .rsve b ∨ i = .rsvf b
  | .stackUnderflow => i = .ret ∧ s.sp = 0
  | .stackOverflow => (∃ nnn, i = .call nnn) ∧ s.sp = s.config.stackDepth
  | .spriteReadOutOfRange =>
    ∃ x y n, i = .drw x y n ∧ scanSprite s x y n = .error .spriteReadOutOfRange
  | .framebufferOutOfRange =>
    ∃ x y n, i = .drw x y n ∧ scanSprite s x y n = .error .framebufferOutOfRange
  | .ok | .invalidOpcode | .fetchOutOfRange => False

/-- Everything `exec` can answer: a next state that keeps the four status fields, or the fault entry of a raised cause. -/
theorem exec_cases (i : Instr) (s : State) :
    (∃ t, exec i s = .next t ∧ t.halted = s.halted ∧ t.faultCause = s.faultCause ∧
      t.faultOpcode = s.faultOpcode ∧ t.faultPc = s.faultPc ∧ ∀ c, ¬ raisedCause i s c) ∨
    ∃ c, raisedCause i s c ∧ exec i s = .next (enterFault c (s.pc - 2) (encode i) s) := by
  cases i with
  | ret =>
    rcases stack_cases s with h | ⟨w, l, h⟩
    · exact .inr ⟨.stackUnderflow, ⟨rfl, by simp [h]⟩, exec_ret_of_empty s h⟩
    · exact .inl ⟨_, exec_ret_of_cons s h, rfl, rfl, rfl, rfl, by rintro ⟨⟩ <;> simp [raisedCause, h]⟩
  | call nnn =>
    by_cases h : s.sp = s.config.stackDepth
    · exact .inr ⟨.stackOverflow, ⟨⟨_, rfl⟩, h⟩, exec_call_of_full s nnn h⟩
    · exact .inl ⟨_, exec_call_of_room s nnn h, rfl, rfl, rfl, rfl,
        by rintro ⟨⟩ <;> simp [raisedCause]; exact h⟩
  | shrReg x y => exact .inr ⟨.unimplementedOpcode, .inl ⟨_, _, rfl⟩, exec_shrReg s x y⟩
  | drw x y n =>
    cases h : scanSprite s x y n with
    | ok cs =>
      exact .inl ⟨_, exec_drw_of_ok s h, rfl, rfl, rfl, rfl, by
        rintro ⟨⟩ <;> simp only [raisedCause, reduceCtorEq, Instr.drw.injEq] <;> simp <;> aesop⟩
    | error e =>
      obtain rfl | rfl : e = .spriteReadOutOfRange ∨ e = .framebufferOutOfRange := by
        obtain ⟨_, _, _, ⟨rfl, _⟩ | ⟨rfl, _⟩⟩ := scanSprite_error h
        · exact .inl rfl
        · exact .inr rfl
      · exact .inr ⟨.spriteReadOutOfRange, ⟨x, y, n, rfl, h⟩, exec_drw_of_error s h⟩
      · exact .inr ⟨.framebufferOutOfRange, ⟨x, y, n, rfl, h⟩, exec_drw_of_error s h⟩
  | rsve b =>
    cases h : s.config.efPolicy
    · exact .inl ⟨_, reservedWord_noop s _ h, rfl, rfl, rfl, rfl, by rintro ⟨⟩ <;> simp [raisedCause, h]⟩
    · exact .inr ⟨.unimplementedOpcode, .inr ⟨h, b, .inl rfl⟩, reservedWord_fault s _ h⟩
  | rsvf b =>
    cases h : s.config.efPolicy
    · exact .inl ⟨_, reservedWord_noop s _ h, rfl, rfl, rfl, rfl, by rintro ⟨⟩ <;> simp [raisedCause, h]⟩
    · exact .inr ⟨.unimplementedOpcode, .inr ⟨h, b, .inr rfl⟩, reservedWord_fault s _ h⟩
  | seImm => exact .inl ⟨_, exec_seImm .., rfl, rfl, rfl, rfl, by rintro ⟨⟩ <;> simp [raisedCause]⟩
  | sneImm => exact .inl ⟨_, exec_sneImm .., rfl, rfl, rfl, rfl, by rintro ⟨⟩ <;> simp [raisedCause]⟩
  | seReg => exact .inl ⟨_, exec_seReg .., rfl, rfl, rfl, rfl, by rintro ⟨⟩ <;> simp [raisedCause]⟩
  | sneReg => exact .inl ⟨_, exec_sneReg .., rfl, rfl, rfl, rfl, by rintro ⟨⟩ <;> simp [raisedCause]⟩
  | _ => exact .inl ⟨_, rfl, rfl, rfl, rfl, rfl, by rintro ⟨⟩ <;> simp [raisedCause]⟩

/-- Everything the host can get from a step on the draw `r`. -/
theorem stepOp_some {r : Byte} {t : State} {c : FaultCause} (h : stepOp r s = some (t, c)) :
    (∃ u, step (s.supplyDraw (some r)) = .next u ∧ t = u.supplyDraw s.suppliedDraw ∧
      c = if u.halted then u.faultCause else .ok) ∨
    s.halted = true ∧ t = s ∧ c = s.faultCause := by
  cases hh : s.halted with
  | true => rw [stepOp_of_halted r hh] at h; cases h; exact .inr ⟨rfl, rfl, rfl⟩
  | false =>
    obtain ⟨u, hu⟩ : ∃ u, step (s.supplyDraw (some r)) = .next u := by
      rcases step_cases (s := s.supplyDraw (some r)) hh with ⟨-, e⟩ | ⟨_, _, -, -, e⟩ | ⟨_, i, -, -, e⟩
      · exact ⟨_, e⟩
      · exact ⟨_, e⟩
      · rcases exec_cases i (advancePc (s.supplyDraw (some r))) with ⟨u, hu, -⟩ | ⟨c, -, hu⟩ <;>
          exact ⟨_, e.trans hu⟩
    rw [stepOp_of_next hu] at h; cases h
    exact .inl ⟨u, hu, rfl, rfl⟩

end Sys2Proof.Machine
end

