-- ==== Sys2Proof/Tests/Slice0.lean ====
section
/-! SUPPORT. The model's own tests. Expected values are the spec's: the worked examples of its rules and the vectors of 95_test_vectors.md, named in each comment. The last part shows, for each statement with hypotheses, a state and operands that meet them. -/

namespace Sys2Proof.Tests

open Sys2Proof Sys2Proof.Machine

/-! ### Helpers -/

/-- The state after one step; the same state if there is none. -/
def after (s : State) : State :=
  match step s with
  | .next t => t
  | _ => s

/-- One step on `s` with `word` at `pc`. -/
def runOne (word : Word) (s : State) : State := after (placeWord word s)

/-- The four status fields and `pc`, to compare with the vectors' columns. -/
def status (s : State) : Bool × FaultCause × Word × Word × Word :=
  (s.halted, s.faultCause, s.faultOpcode, s.faultPc, s.pc)

/-- Registers set one after the other, from reset. -/
def regs (l : List (RegIdx × Byte)) : State := l.foldl (fun s p => s.setV p.1 p.2) State.reset

/-- A sprite at `addr`, with `I` on it. -/
def sprite (addr : Word) (bytes : List Byte) (s : State) : State :=
  (s.setRam (s.ram.writeAll addr.toNat bytes)).setI addr

/-- Cells lit, by toggling. -/
def lit (cells : List FbCell) (s : State) : State := s.setFb (toggleAll cells s.fb).1

/-- How many cells of a column range and row are lit. -/
def litIn (s : State) (cells : List FbCell) : Bool := cells.all fun c => s.fb.isLit c

/-- The number of lit cells. -/
def litCount (s : State) : Nat := (s.fb.toList.map fun row => row.toList.count true).sum

/-- The parameters with another stack depth or policy. -/
def withPolicy (s : State) : State := { s with config := { s.config with efPolicy := .fault } }

def inTickMode : State := { State.reset with config := { Config.standard with timerMode := .tick } }

/-! ### Well-formedness: the one check, and a term it refuses -/

theorem test_wellFormed_refuses_row_count_16 : (Instr.drw 1 2 16).wellFormed = false := by decide

theorem test_wellFormed_accepts_row_count_15 : (Instr.drw 1 2 15).wellFormed = true := by decide

/-! ### Decoding: one word of each row of R76, written out bit by bit as class, fields and fixed bits -/

theorem test_decode_cls : decode 0b0000000011100000#16 = .ok (.cls) := by decide

theorem test_decode_ret : decode 0b0000000011101110#16 = .ok (.ret) := by decide

theorem test_decode_jp : decode 0b0001001000110100#16 = .ok (.jp 0x234#12) := by decide

theorem test_decode_call : decode 0b0010111100000001#16 = .ok (.call 0xF01#12) := by decide

theorem test_decode_seImm : decode 0b0011001100101010#16 = .ok (.seImm 3 0x2A#8) := by decide

theorem test_decode_sneImm : decode 0b0100111110000001#16 = .ok (.sneImm 15 0x81#8) := by decide

theorem test_decode_seReg : decode 0b0101000100100000#16 = .ok (.seReg 1 2) := by decide

theorem test_decode_ldImm : decode 0b0110101001111111#16 = .ok (.ldImm 10 0x7F#8) := by decide

theorem test_decode_addImm : decode 0b0111000100100000#16 = .ok (.addImm 1 0x20#8) := by decide

theorem test_decode_ldReg : decode 0b1000000100100000#16 = .ok (.ldReg 1 2) := by decide

theorem test_decode_orReg : decode 0b1000000100100001#16 = .ok (.orReg 1 2) := by decide

theorem test_decode_andReg : decode 0b1000001101000010#16 = .ok (.andReg 3 4) := by decide

theorem test_decode_xorReg : decode 0b1000010101100011#16 = .ok (.xorReg 5 6) := by decide

theorem test_decode_addReg : decode 0b1000000000010100#16 = .ok (.addReg 0 1) := by decide

theorem test_decode_subReg : decode 0b1000111100010101#16 = .ok (.subReg 15 1) := by decide

theorem test_decode_shrReg : decode 0b1000000100100110#16 = .ok (.shrReg 1 2) := by decide

theorem test_decode_subnReg : decode 0b1000000111110111#16 = .ok (.subnReg 1 15) := by decide

theorem test_decode_sneReg : decode 0b1001000100100000#16 = .ok (.sneReg 1 2) := by decide

theorem test_decode_ldI : decode 0b1010001011110000#16 = .ok (.ldI 0x2F0#12) := by decide

theorem test_decode_jpV0 : decode 0b1011001100000000#16 = .ok (.jpV0 0x300#12) := by decide

theorem test_decode_rnd : decode 0b1100001100001111#16 = .ok (.rnd 3 0x0F#8) := by decide

theorem test_decode_drw : decode 0b1101000100101111#16 = .ok (.drw 1 2 15) := by decide

theorem test_decode_rsve : decode 0b1110000110011110#16 = .ok (.rsve 0x19E#12) := by decide

theorem test_decode_rsvf : decode 0b1111000100010101#16 = .ok (.rsvf 0x115#12) := by decide

/-- The words of vectors A32, K11, K12, X13 and X14: invalid, each by its own reason. -/
theorem test_decode_invalid_words :
    decode 0x812E#16 = .error .class8Nibble ∧ decode 0x5121#16 = .error .class5Nibble ∧
    decode 0x912F#16 = .error .class9Nibble ∧ decode 0x01E0#16 = .error .class0Word ∧
    decode 0x00E1#16 = .error .class0Word := by decide

theorem test_decode_truncated : decodeBytes [0x12#8] = .error .truncated := by decide

/-- The bytes of the document's scenario (S8), high byte first. -/
theorem test_decodeBytes_leaves_the_rest :
    decodeBytes [0x60#8, 0x05#8, 0x61#8, 0x03#8] = .ok (.ldImm 0 0x05#8, [0x61#8, 0x03#8]) := by decide

theorem test_decodeTableWord : decodeTableWord 16 0x8125 = some (.subReg 1 2) := by decide

/-! ### One step per vector -/

/-- A1. -/
theorem test_ldImm : (runOne 0x6A7F#16 State.reset).v[10] = 0x7F#8 := by decide

/-- A3: wraps, `VF` untouched. -/
theorem test_addImm_wraps : let t := runOne 0x7120#16 (regs [(1, 0xF0#8), (15, 0x55#8)])
    t.v[1] = 0x10#8 ∧ t.v[15] = 0x55#8 := by decide

/-- A4. -/
theorem test_addImm_to_VF : (runOne 0x7F01#16 (regs [(15, 0xFF#8)])).v[15] = 0x00#8 := by decide

/-- A6. -/
theorem test_ldReg : (runOne 0x8120#16 (regs [(2, 0x33#8)])).v[1] = 0x33#8 := by decide

/-- A7: `VF` not reset. -/
theorem test_orReg : let t := runOne 0x8121#16 (regs [(1, 0xF0#8), (2, 0x0F#8), (15, 0x07#8)])
    t.v[1] = 0xFF#8 ∧ t.v[15] = 0x07#8 := by decide

/-- A8. -/
theorem test_andReg : (runOne 0x8122#16 (regs [(1, 0xF0#8), (2, 0x3C#8)])).v[1] = 0x30#8 := by decide

/-- A9. -/
theorem test_xorReg : (runOne 0x8123#16 (regs [(1, 0xF0#8), (2, 0x3C#8)])).v[1] = 0xCC#8 := by decide

/-- A14: sum exactly 256. -/
theorem test_addReg_carry : let t := runOne 0x8014#16 (regs [(0, 0x80#8), (1, 0x80#8)])
    t.v[0] = 0x00#8 ∧ t.v[15] = 0x01#8 := by decide

/-- A16: with `X = F` the flag stays. -/
theorem test_addReg_into_VF : (runOne 0x8F14#16 (regs [(15, 0x10#8), (1, 0x20#8)])).v[15] = 0x00#8 := by decide

/-- A21: wraps, flag 0. -/
theorem test_subReg_wraps : let t := runOne 0x8125#16 (regs [(1, 0x03#8), (2, 0x0A#8), (15, 0x01#8)])
    t.v[1] = 0xF9#8 ∧ t.v[15] = 0x00#8 := by decide

/-- A22: equal operands, flag 0. -/
theorem test_subReg_equal : let t := runOne 0x8125#16 (regs [(1, 0x07#8), (2, 0x07#8), (15, 0x01#8)])
    t.v[1] = 0x00#8 ∧ t.v[15] = 0x00#8 := by decide

/-- A27. -/
theorem test_subnReg : let t := runOne 0x8127#16 (regs [(1, 0x03#8), (2, 0x0A#8)])
    t.v[1] = 0x07#8 ∧ t.v[15] = 0x01#8 := by decide

/-- A31: the unimplemented shift, `V1` unchanged. -/
theorem test_shrReg_faults : let t := runOne 0x8126#16 (regs [(1, 0x40#8), (2, 0x02#8)])
    status t = (true, .unimplementedOpcode, 0x8126#16, 0x0200#16, 0x0202#16) ∧ t.v[1] = 0x40#8 := by decide

/-- K1 and K2. -/
theorem test_seImm : (runOne 0x332A#16 (regs [(3, 0x2A#8)])).pc = 0x0204#16 ∧
    (runOne 0x332A#16 (regs [(3, 0x2B#8)])).pc = 0x0202#16 := by decide

/-- K3 and K4. -/
theorem test_sneImm : (runOne 0x432A#16 (regs [(3, 0x2A#8)])).pc = 0x0202#16 ∧
    (runOne 0x432A#16 State.reset).pc = 0x0204#16 := by decide

/-- K5 and K6. -/
theorem test_seReg : (runOne 0x5120#16 (regs [(1, 7#8), (2, 7#8)])).pc = 0x0204#16 ∧
    (runOne 0x5120#16 (regs [(1, 7#8), (2, 8#8)])).pc = 0x0202#16 := by decide

/-- K8 and K9. -/
theorem test_sneReg : (runOne 0x9120#16 (regs [(1, 7#8), (2, 8#8)])).pc = 0x0204#16 ∧
    (runOne 0x9120#16 (regs [(1, 7#8), (2, 7#8)])).pc = 0x0202#16 := by decide

/-- F1. -/
theorem test_jp : (runOne 0x1234#16 State.reset).pc = 0x0234#16 := by decide

/-- F4: pushes the advanced `pc`. -/
theorem test_call : let t := runOne 0x2300#16 State.reset
    t.stack = [0x0202#16] ∧ t.pc = 0x0300#16 := by decide

/-- F8: a stack of depth 1 that is full. -/
theorem test_call_overflows :
    let s := { State.reset with stack := [0x0202#16], config := { Config.standard with stackDepth := 1 } }
    status (runOne 0x2300#16 s) = (true, .stackOverflow, 0x2300#16, 0x0200#16, 0x0202#16) ∧
    (runOne 0x2300#16 s).stack = [0x0202#16] := by decide

/-- F5. -/
theorem test_ret : let t := runOne 0x00EE#16 { State.reset with stack := [0x0202#16], pc := 0x0300#16 }
    t.stack = [] ∧ t.pc = 0x0202#16 := by decide

/-- F6. -/
theorem test_ret_underflows :
    status (runOne 0x00EE#16 State.reset) = (true, .stackUnderflow, 0x00EE#16, 0x0200#16, 0x0202#16) := by decide

/-- F10: not masked to 12 bits. -/
theorem test_jpV0 : (runOne 0xBFFF#16 (regs [(0, 0xFF#8)])).pc = 0x10FE#16 := by decide

/-- F14: `pc` not advanced, no half opcode. -/
theorem test_fetch_fault : status (after { State.reset with pc := 0x0FFF#16 }) =
    (true, .fetchOutOfRange, 0x0000#16, 0x0FFF#16, 0x0FFF#16) := by decide

/-- I1. -/
theorem test_ldI : (runOne 0xA2F0#16 State.reset).i = 0x02F0#16 := by decide

/-- I4 and I8: the host's step with the draws 0xA7 and 0xEE; the second is ignored. -/
theorem test_rnd_draw :
    (stepOp 0xA7#8 (placeWord 0xC30F#16 (regs [(3, 0xFF#8)]))).map (fun p => (p.1.v[3], p.1.pc, p.2)) =
      some (0x07#8, 0x0202#16, .ok) ∧
    (stepOp 0xEE#8 (placeWord 0x6001#16 State.reset)).map (fun p => (p.1.v[0], p.2)) = some (0x01#8, .ok) := by
  decide

/-- I5: the result is 0 whatever the draw. -/
theorem test_rnd_mask_zero : (runOne 0xC300#16 (regs [(3, 0x55#8)])).v[3] = 0x00#8 := by
  change Config.randomByte 0 &&& 0x00#8 = 0x00#8
  exact BitVec.and_zero

/-- D1: the document's example, first draw. -/
theorem test_drw : let t := runOne 0xD011#16 (sprite 0x300#16 [0xFF#8] (regs [(15, 0x01#8)]))
    t.v[15] = 0x00#8 ∧ litCount t = 8 ∧ t.fb.isLit ⟨0, 0⟩ = true ∧ t.fb.isLit ⟨7, 0⟩ = true := by decide

/-- D8: column 64; nothing lit, `VF` still 1. -/
theorem test_drw_faults : let t := runOne 0xD121#16 (sprite 0x300#16 [0xFF#8] (regs [(1, 0x39#8), (15, 0x01#8)]))
    status t = (true, .framebufferOutOfRange, 0xD121#16, 0x0200#16, 0x0202#16) ∧
    litCount t = 0 ∧ t.v[15] = 0x01#8 := by decide

/-- D30. -/
theorem test_cls : let t := runOne 0x00E0#16 (lit [⟨0, 0⟩, ⟨5, 7⟩, ⟨63, 31⟩] (regs [(15, 0x01#8)]))
    litCount t = 0 ∧ t.v[15] = 0x01#8 := by decide

/-- X1 and X10. -/
theorem test_rsve : (runOne 0xE19E#16 (regs [(1, 5#8)])).pc = 0x0202#16 ∧
    status (runOne 0xE19E#16 (withPolicy State.reset)) =
      (true, .unimplementedOpcode, 0xE19E#16, 0x0200#16, 0x0202#16) := by decide

/-- X3 and X11. -/
theorem test_rsvf : (runOne 0xF115#16 (regs [(1, 0x3C#8)])).dt = 255#8 ∧
    status (runOne 0xF115#16 (withPolicy State.reset)) =
      (true, .unimplementedOpcode, 0xF115#16, 0x0200#16, 0x0202#16) := by decide

/-- H1 and H2: from reset with nothing loaded, then a step on the halted core. -/
theorem test_halted :
    status (after State.reset) = (true, .invalidOpcode, 0x0000#16, 0x0200#16, 0x0202#16) ∧
    step (after State.reset) = .fault (.halted .invalidOpcode) := by
  constructor
  · decide
  · exact step_of_halted rfl

/-- H5: one byte too many. -/
theorem test_load_overflow : (load (List.replicate 3585 0xFF#8) State.reset).2 = .loadOverflow := by
  rw [load_of_gt (by rw [List.length_replicate]; decide)]

/-- The first byte of H4, and RAM just below it. -/
theorem test_load : let t := (load [0x12#8, 0x00#8] State.reset).1
    t.ram.read 0x200 = some 0x12#8 ∧ t.ram.read 0x1FF = some 0x00#8 ∧ t.pc = 0x200#16 := by decide

/-- H11, one of its three ticks, and the stop at 0. -/
theorem test_timer_tick : (timerTick inTickMode).map (fun t => (t.dt, t.st)) = some (254#8, 254#8) ∧
    tickTimer 0#8 = 0#8 ∧ timerTick State.reset = none := by decide

/-- A word placed on a halted core and on one whose `pc` is outside RAM is the one the next step runs. -/
theorem test_withFetchWord :
    (after (State.withFetchWord (after State.reset) 16 0x6005)).v[0] = 0x05#8 ∧
    (after (State.withFetchWord { State.reset with pc := 0x10FE#16 } 16 0x6005)).pc = 0x202#16 := by decide

/-! ### Witnesses: states and operands that meet the hypotheses of the statements -/

/-- The document's scenario S7: a call at 0x0200 and its return at 0x0300. -/
def callAndReturn : State :=
  placeWord 0x2300#16 (State.reset.setRam (State.reset.ram.writeAll 0x300 [0x00#8, 0xEE#8]))

/-- A full stack of the default depth (vector F7). -/
def fullStack : State := { State.reset with stack := List.replicate 16 0x0202#16 }

/-- Two rows in the bottom right corner: every access fits, at the last column and row. -/
def cornerSprite : State := sprite 0x300#16 [0xC3#8, 0x81#8] (regs [(0, 0x38#8), (1, 0x1E#8)])

theorem witness_DecodeOfEncodeIsTheInstruction : (Instr.drw 15 0 15).wellFormed = true ∧
    (Instr.drw 0 15 0).wellFormed = true := by decide

theorem witness_EncodeOfDecodeIsTheWord : decode 0xD12F#16 = .ok (.drw 1 2 15) := by decide

theorem witness_OpcodeMapRowsSelectTheirInstructions :
    (opcodeRows.all fun r => r.matchesWord r.pattern) = true ∧
    (opcodeRows.all fun r => r.matchesWord (r.pattern ||| ~~~r.mask)) = true ∧
    (∀ r ∈ opcodeRows, (0x0000#16 : Word) &&& r.mask ≠ r.pattern) ∧
    State.reset.halted = false ∧ fetch State.reset = some 0x0000#16 := by decide

theorem witness_InvalidWordsOfEachClass :
    (0x0FFF#16 : Word).extractLsb' 12 4 = 0x0#4 ∧ (0x5F10#16 : Word).extractLsb' 12 4 = 0x5#4 ∧
    (0x912F#16 : Word).extractLsb' 12 4 = 0x9#4 ∧ (0x8127#16 : Word).extractLsb' 12 4 = 0x8#4 ∧
    ((0xFFFF#16 : Word).extractLsb' 12 4 ≠ 0x0#4 ∧ (0xFFFF#16 : Word).extractLsb' 12 4 ≠ 0x5#4 ∧
      (0xFFFF#16 : Word).extractLsb' 12 4 ≠ 0x8#4 ∧ (0xFFFF#16 : Word).extractLsb' 12 4 ≠ 0x9#4) := by decide

/-- The last address a fetch succeeds from. -/
theorem witness_FetchIsBigEndian : ({ State.reset with pc := 0x0FFE#16 } : State).pc.toNat ≤ 4094 := by decide

theorem witness_RamReadsWhatWasWritten : Memory.wf [(0xFFF, 0x80#8)] ∧ 0xFFF < 4096 ∧ 0x1000 ≠ 0xFFF ∧
    4096 ≤ 0x1000 := by decide

theorem witness_EqualReadsMakeEqualMemories : Memory.wf [(0x200, 0x12#8), (0x201, 0x34#8)] ∧
    ∀ addr < 4096, Memory.read [(0x200, 0x12#8), (0x201, 0x34#8)] addr =
      Memory.read [(0x200, 0x12#8), (0x201, 0x34#8)] addr := ⟨by decide, fun _ _ => rfl⟩

theorem witness_NoInstructionWritesRam :
    (∃ t, exec (.rsvf 0x033#12) State.reset = .next t) ∧ (∃ t, step callAndReturn = .next t) ∧
    (∃ t r, performHostOp .clearDisplay State.reset = some (t, r) ∧ HostOp.clearDisplay ≠ .reset ∧
      ∀ bytes, HostOp.clearDisplay ≠ .load bytes) ∧ 0x1FF < 0x200 :=
  ⟨⟨_, rfl⟩, ⟨_, rfl⟩, ⟨_, _, rfl, nofun, nofun⟩, by decide⟩

theorem witness_StepRunsTheDecodedInstruction :
    let s := placeWord 0x6001#16 { State.reset with pc := 0x0FFE#16 }
    s.halted = false ∧ s.pc.toNat ≤ 4094 ∧
    decode (s.ram.byteAt s.pc.toNat ++ s.ram.byteAt (s.pc.toNat + 1)) = .ok (.ldImm 0 0x01#8) := by decide

/-- One state for each clause: halted, `pc` 4095, `pc` 4094 with an invalid, a shift, a reserved and another word. -/
theorem witness_StepIsTheWholeCycle :
    (after State.reset).halted = true ∧
    (let s := { State.reset with pc := 0x0FFF#16 }; s.halted = false ∧ 4095 ≤ s.pc.toNat) ∧
    (let s := { State.reset with pc := 0x0FFE#16 }
     s.halted = false ∧ s.pc.toNat ≤ 4094 ∧
      decode (s.ram.byteAt s.pc.toNat ++ s.ram.byteAt (s.pc.toNat + 1)) = .error .class0Word) ∧
    decode 0x8FF6#16 = .ok (.shrReg 15 15) ∧ decode 0xEFFF#16 = .ok (.rsve 0xFFF#12) ∧
    State.reset.config.efPolicy = .noop ∧ decode 0xC3FF#16 = .ok (.rnd 3 0xFF#8) ∧
    decode 0xD010#16 = .ok (.drw 0 1 0) ∧ (∀ x nn, Instr.drw 0 1 0 ≠ .rnd x nn) := by
  refine ⟨by decide, by decide, by decide, by decide, by decide, rfl, by decide, by decide, nofun⟩

theorem witness_HaltedCoreIsStuckUntilReset :
    (after State.reset).halted = true ∧ HostOp.load [0x12#8] ≠ .reset ∧
    ∃ t r, performHostOp (.load [0x12#8]) (after State.reset) = some (t, r) :=
  ⟨rfl, nofun, _, _, rfl⟩

theorem witness_EveryStepAnswers : State.reset.halted = false := rfl

theorem witness_RetPopsThePc :
    ({ State.reset with stack := [0x1000#16] } : State).stack = 0x1000#16 :: [] ∧ State.reset.stack = [] :=
  ⟨rfl, rfl⟩

theorem witness_CallPushesTheAdvancedPc : State.reset.sp ≠ State.reset.config.stackDepth ∧
    fullStack.sp = fullStack.config.stackDepth := by decide

theorem witness_CallThenReturnRoundTrip :
    callAndReturn.halted = false ∧ callAndReturn.pc.toNat ≤ 4094 ∧
    fetch callAndReturn = some (0x2#4 ++ 0x300#12) ∧ callAndReturn.sp ≠ callAndReturn.config.stackDepth ∧
    (0x300#12).toNat ≤ 4094 ∧
    callAndReturn.ram.byteAt (0x300#12).toNat ++ callAndReturn.ram.byteAt ((0x300#12).toNat + 1) =
      0x00EE#16 := by decide

theorem witness_flag_destinations : (14 : RegIdx) ≠ vF ∧ (0 : RegIdx) ≠ vF := by decide

/-- Both premises on the draw: one supplied, and none. -/
theorem witness_RandomIsTheDrawUnderTheMask :
    (State.reset.supplyDraw (some 0xA7#8)).suppliedDraw = some 0xA7#8 ∧ State.reset.suppliedDraw = none :=
  ⟨rfl, rfl⟩

theorem witness_OnlyRandomUsesTheDraw : (∀ x nn, Instr.ldImm 0 0x01#8 ≠ .rnd x nn) ∧
    (∃ t, exec (.ldImm 0 0x01#8) State.reset = .next t) ∧
    ∀ op x nn, fetch State.reset = some op → decode op ≠ .ok (.rnd x nn) := by
  refine ⟨nofun, ⟨_, rfl⟩, fun op x nn h => ?_⟩
  obtain rfl : 0x0000#16 = op := Option.some.inj h
  exact nofun

theorem witness_ToggleFlipsOneCell : (⟨63, 31⟩ : FbCell) ≠ ⟨0, 0⟩ := by decide

/-- The draw that just fits at the last column and row, and the draw of no rows. -/
theorem witness_DrawFlipsCoveredCellsAndReportsCollision :
    (∀ row < 2, spriteRowFits cornerSprite 0 1 row) ∧ (∀ row < 0, spriteRowFits State.reset 0 1 row) := by
  unfold spriteRowFits spriteBit; decide

/-- The premises of its collision clauses: a covered cell that is lit, and no covered cell lit. -/
theorem witness_collision :
    drawCovers (lit [⟨56, 30⟩] cornerSprite) 0 1 2 ⟨56, 30⟩ ∧
    (lit [⟨56, 30⟩] cornerSprite).fb.isLit ⟨56, 30⟩ = true ∧
    ∀ c, drawCovers cornerSprite 0 1 2 c → cornerSprite.fb.isLit c = false := by
  refine ⟨?_, by decide, fun c _ => isLit_cleared c⟩
  unfold drawCovers spriteBit; decide

/-- The row above address 4095 (vector D12), a column past 63 (D8) and a row past 31 (D10), each the first access that fails. -/
theorem witness_DrawFaultsOnTheFirstFailingAccess :
    (let s := sprite 0xFFF#16 [0x80#8] State.reset
     (∀ r < 1, spriteRowFits s 1 2 r) ∧ 4095 < s.i.toNat + 1) ∧
    (let s := sprite 0x300#16 [0x01#8] (regs [(1, 0x39#8)])
     s.i.toNat + 0 ≤ 4095 ∧ spriteBit s 0 7 ∧ 63 < s.v[(1 : RegIdx)].toNat % 64 + 7) ∧
    (let s := sprite 0x300#16 [0x80#8, 0x80#8] (regs [(2, 0x1F#8)])
     (∀ r < 1, spriteRowFits s 1 2 r) ∧ s.i.toNat + 1 ≤ 4095 ∧ spriteBit s 1 0 ∧
      31 < s.v[(2 : RegIdx)].toNat % 64 % 32 + 1) := by
  unfold spriteRowFits spriteBit; decide

theorem witness_DrawingTwiceErases : (0 : RegIdx) ≠ vF ∧ (1 : RegIdx) ≠ vF ∧ cornerSprite.halted = false ∧
    ∃ t, exec (.drw 0 1 2) cornerSprite = .next t ∧ t.halted = false :=
  ⟨by decide, by decide, rfl, _, rfl, rfl⟩

theorem witness_ReservedClassesFollowThePolicy : State.reset.config.efPolicy = .noop ∧
    (withPolicy State.reset).config.efPolicy = .fault := ⟨rfl, rfl⟩

theorem witness_InvalidWordRaisesInvalidOpcode : State.reset.halted = false ∧
    fetch State.reset = some 0x0000#16 ∧ decode 0x0000#16 = .error .class0Word := by decide

theorem witness_RegistersAreAccessedAsTheTableSays :
    (∃ t, exec (.addReg 0 1) (regs [(0, 5#8), (1, 3#8)]) = .next t) ∧
    (∀ k ∈ (Instr.addReg 0 1).regReads,
      (regs [(0, 5#8), (1, 3#8), (2, 9#8)]).v[k] = (regs [(0, 5#8), (1, 3#8)]).v[k]) ∧
    ∃ t r, performHostOp .clearDisplay State.reset = some (t, r) ∧ HostOp.clearDisplay ≠ .reset ∧
      ∀ d, HostOp.clearDisplay ≠ .step d :=
  ⟨⟨_, rfl⟩, by decide, _, _, rfl, nofun, fun _ => nofun⟩

theorem witness_FlagIsZeroOrOne : ∃ a b c d : State,
    exec (.addReg 0 1) State.reset = .next a ∧ a.halted = false ∧
    exec (.subReg 0 1) State.reset = .next b ∧ b.halted = false ∧
    exec (.subnReg 0 1) State.reset = .next c ∧ c.halted = false ∧
    exec (.drw 0 1 2) cornerSprite = .next d ∧ d.halted = false ∧
    ∃ e, exec (.ldImm vF 0x09#8) State.reset = .next e ∧ e.v[vF] ≠ State.reset.v[vF] :=
  ⟨_, _, _, _, rfl, rfl, rfl, rfl, rfl, rfl, rfl, rfl, _, rfl, by decide⟩

theorem witness_OnlyControlFlowMovesThePc : ∃ a b : State,
    exec (.jp 0x234#12) State.reset = .next a ∧ a.pc ≠ State.reset.pc ∧
    exec (.seImm 0 0x00#8) State.reset = .next b ∧ b.pc ≠ State.reset.pc :=
  ⟨_, _, rfl, by decide, rfl, by decide⟩

theorem witness_EachStateHasItsWriters_exec : ∃ a b c d e f : State,
    exec (.ldI 0x2F0#12) State.reset = .next a ∧ a.i ≠ State.reset.i ∧
    exec (.call 0x300#12) State.reset = .next b ∧ b.stack ≠ State.reset.stack ∧ b.pc ≠ State.reset.pc ∧
    exec .cls (lit [⟨0, 0⟩] State.reset) = .next c ∧ c.fb ≠ (lit [⟨0, 0⟩] State.reset).fb ∧
    exec (.ldImm 3 0x09#8) State.reset = .next d ∧ d.v[(3 : RegIdx)] ≠ State.reset.v[(3 : RegIdx)] ∧
    exec .ret State.reset = .next e ∧ e.halted ≠ State.reset.halted ∧
    exec (.shrReg 1 2) State.reset = .next f ∧ f.faultOpcode ≠ State.reset.faultOpcode :=
  ⟨_, _, _, _, _, _, rfl, by decide, rfl, by decide, by decide, rfl, by decide, rfl, by decide, rfl, by decide, rfl,
    by decide⟩

theorem witness_EachStateHasItsWriters_host : ∃ (a b c d : State) (q r u v : HostResult),
    performHostOp (.step 0x00#8) callAndReturn = some (a, q) ∧ a.pc ≠ callAndReturn.pc ∧
    performHostOp (.step 0x00#8) State.reset = some (b, r) ∧ b.halted ≠ State.reset.halted ∧
    performHostOp .clearDisplay (lit [⟨0, 0⟩] State.reset) = some (c, u) ∧
    c.fb ≠ (lit [⟨0, 0⟩] State.reset).fb ∧
    performHostOp (.load [0x12#8]) State.reset = some (d, v) ∧ d.ram ≠ State.reset.ram :=
  ⟨_, _, _, _, _, _, _, _, rfl, by decide, rfl, by decide, rfl, by decide, rfl, by decide⟩

theorem witness_TimersAreOutOfReachOfPrograms :
    (∃ t, exec (.rsvf 0x115#12) State.reset = .next t) ∧
    ∃ t r, performHostOp .timerTick inTickMode = some (t, r) ∧ (t.dt ≠ inTickMode.dt ∨ t.st ≠ inTickMode.st) :=
  ⟨⟨_, rfl⟩, _, _, rfl, by decide⟩

theorem witness_FaultsArePreciseAndRecorded :
    (∃ t, step { State.reset with pc := 0x0FFF#16 } = .next t ∧ t.halted = true) ∧
    4095 ≤ (0x0FFF#16 : Word).toNat ∧
    (∃ t, step (placeWord 0x8126#16 { State.reset with pc := 0x0FFE#16 }) = .next t ∧ t.halted = true) ∧
    (0x0FFE#16 : Word).toNat ≤ 4094 :=
  ⟨⟨_, rfl, rfl⟩, by decide, ⟨_, rfl, rfl⟩, by decide⟩

/-- A step for each of the eight results. -/
theorem witness_EachCauseHasItsCondition :
    (stepOp 0x00#8 callAndReturn).map (·.2) = some .ok ∧
    (stepOp 0x00#8 { State.reset with pc := 0x0FFF#16 }).map (·.2) = some .fetchOutOfRange ∧
    (stepOp 0x00#8 State.reset).map (·.2) = some .invalidOpcode ∧
    (stepOp 0x00#8 (placeWord 0x8126#16 State.reset)).map (·.2) = some .unimplementedOpcode ∧
    (stepOp 0x00#8 (placeWord 0x00EE#16 State.reset)).map (·.2) = some .stackUnderflow ∧
    (stepOp 0x00#8 (placeWord 0x2300#16 fullStack)).map (·.2) = some .stackOverflow ∧
    (stepOp 0x00#8 (placeWord 0xD122#16 (sprite 0xFFF#16 [0x80#8] State.reset))).map (·.2) =
      some .spriteReadOutOfRange ∧
    (stepOp 0x00#8 (placeWord 0xD121#16 (sprite 0x300#16 [0xFF#8] (regs [(1, 0x39#8)])))).map (·.2) =
      some .framebufferOutOfRange := by decide

theorem witness_LoadCopiesVerbatimOrRefuses : State.reset.ram.wf ∧
    (List.replicate 3584 0xFF#8).length ≤ 3584 ∧ 3584 < (List.replicate 3585 0xFF#8).length ∧
    (0xFFF < 0x200 ∨ 0x200 + [0xFF#8].length ≤ 0xFFF) := by
  rw [List.length_replicate, List.length_replicate]; decide

theorem witness_LoadedProgramRunsFromItsFirstWord : (List.replicate 3582 0x00#8).length ≤ 3582 ∧
    decode (0x60#8 ++ 0x05#8) = .ok (.ldImm 0 0x05#8) := by
  rw [List.length_replicate]; decide

/-- The top entry, and an address on each side of the bound. -/
theorem witness_ReadStateReturnsTheState : 0 < fullStack.sp ∧ 0xFFF < 4096 ∧ 4096 ≤ 0x1000 := by decide

theorem witness_TicksCountDownToZero : State.reset.config.timerMode = .hold ∧
    inTickMode.config.timerMode = .tick := ⟨rfl, rfl⟩

theorem witness_HostWritesOnlyItsOwnTargets :
    ∃ t r, performHostOp (.load [0x12#8]) State.reset = some (t, r) ∧ HostOp.load [0x12#8] ≠ .reset ∧
      (∀ d, HostOp.load [0x12#8] ≠ .step d) ∧ HostOp.load [0x12#8] ≠ .timerTick ∧ 0x1FF < 0x200 ∧
      ∀ bytes, HostOp.clearDisplay ≠ .load bytes :=
  ⟨_, _, rfl, nofun, fun _ => nofun, nofun, by decide, fun _ => nofun⟩

theorem witness_ResetGivesTheResetValues :
    ∃ u, performHostOp .reset fullStack = some (u, .none) ∧ u.stack ≠ fullStack.stack := ⟨_, rfl, by decide⟩

theorem witness_ResetMeetsTheInvariant : Config.standard.legal ∧
    ({ Config.standard with stackDepth := 1 } : Config).legal := by decide

/-- The invariant holds of a state with a program in RAM and an entry on the stack, and a step leads on from it, the host's too (HostOperationsKeepTheInvariant). -/
theorem witness_StepKeepsTheInvariant :
    let s : State := { placeWord 0x00EE#16 State.reset with stack := [0x0202#16] }
    s.Inv ∧ (∃ t, step s = .next t) ∧ ∃ t r, performHostOp (.step 0x00#8) s = some (t, r) := by
  have hram : (placeWord 0x00EE#16 State.reset).ram = [(0x201, 0xEE#8)] := by decide
  refine ⟨⟨by decide, by decide, fun w hw => ?_, by decide, fun a ha => ?_, fun _ => ⟨rfl, rfl⟩, by decide, by decide,
    by decide⟩, ⟨_, rfl⟩, _, _, rfl⟩
  · obtain rfl := List.mem_singleton.1 hw
    decide
  change Memory.byteAt (placeWord 0x00EE#16 State.reset).ram a = 0x00#8
  rw [hram]
  exact if_neg (by simp only [programBase] at ha; omega)

theorem witness_ReachableStatesMeetTheInvariant : Reachable State.reset :=
  Reachable.reset Config.standard (by decide)

/-- Vector F2: a jump to itself. -/
theorem witness_ParkedStateIsAFixedPoint : Parked (placeWord 0x1200#16 State.reset) :=
  ⟨rfl, 0x200#12, by decide, by decide⟩

/-- A step that takes a draw, with one supplied and with none. -/
theorem witness_StepIsTheHostStepOnItsDraw :
    let s := placeWord 0xC3FF#16 State.reset
    (∃ t, step s = .next t) ∧ s.suppliedDraw = none ∧
    (∃ t, step (s.supplyDraw (some 0x5C#8)) = .next t) ∧
    (s.supplyDraw (some 0x5C#8)).suppliedDraw = some 0x5C#8 :=
  ⟨⟨_, rfl⟩, rfl, ⟨_, rfl⟩, rfl⟩

end Sys2Proof.Tests
end

/-! PROOFS for 10_state.md. The layer below says once what an instruction (`exec_effect`), a step
(`step_next`) and an operation of the host (`performHostOp_effect`) can do to the state; the
statements about registers, writers and the invariant of R38 are read off these cases. -/

namespace Sys2Proof.Machine

/-! ### Canonical memories (R30, R50) -/

/-- An address that reads other than the reset byte is listed, with the byte it reads as. -/
theorem Memory.mem_of_byteAt_ne {m : Memory} {a : Nat} (h : m.byteAt a ≠ unlistedByte) :
    (a, m.byteAt a) ∈ m := by
  induction m with
  | nil => exact absurd rfl h
  | cons d m ih =>
    obtain ⟨c, e⟩ := d
    rw [Memory.byteAt_cons] at h ⊢
    split_ifs at h ⊢ with hc
    · subst hc; exact List.mem_cons_self
    · exact List.mem_cons_of_mem _ (ih h)

/-- A canonical memory lists exactly the RAM bytes that differ from the reset contents. -/
theorem Memory.mem_iff {m : Memory} (hm : m.wf) {a : Nat} {b : Byte} :
    (a, b) ∈ m ↔ b ≠ unlistedByte ∧ m.byteAt a = b := by
  constructor
  · intro h
    exact ⟨(hm.2 _ h).2, Memory.byteAt_of_mem hm h⟩
  · rintro ⟨hb, rfl⟩
    exact Memory.mem_of_byteAt_ne hb

theorem Memory.byteAt_of_ge {m : Memory} (hm : m.wf) {a : Nat} (h : 4096 ≤ a) :
    m.byteAt a = unlistedByte := by
  by_contra hne
  have hlt : a < ramSize := (hm.2 _ (Memory.mem_of_byteAt_ne hne)).1
  exact absurd hlt (by simp only [ramSize]; omega)

theorem Memory.nodup {m : Memory} (hm : m.wf) : m.Nodup :=
  hm.1.imp fun hlt he => absurd hlt (by simp [he])

/-- Two strictly rising lists with the same members are the same list. -/
theorem Memory.eq_of_mem_iff {m m' : Memory} (hm : m.wf) (hm' : m'.wf)
    (h : ∀ c, c ∈ m ↔ c ∈ m') : m = m' :=
  ((List.perm_ext_iff_of_nodup (Memory.nodup hm) (Memory.nodup hm')).2 h).eq_of_pairwise
    (fun _ _ _ _ hlt hgt => absurd hlt (Nat.lt_asymm hgt)) hm.1 hm'.1

/-- Settles O8: both memories list exactly the bytes that differ from the reset contents. -/
theorem equalReadsMakeEqualMemories : Obligations.EqualReadsMakeEqualMemories := by
  intro m m' hm hm' hread
  have hbyte (a : Nat) : m.byteAt a = m'.byteAt a := by
    by_cases ha : a < 4096
    · simpa only [Memory.read_eq ha, Option.some.injEq] using hread a ha
    · rw [Memory.byteAt_of_ge hm (by omega), Memory.byteAt_of_ge hm' (by omega)]
  exact Memory.eq_of_mem_iff hm hm' fun ⟨a, b⟩ => by
    rw [Memory.mem_iff hm, Memory.mem_iff hm', hbyte]

/-! ### What an instruction can do (R104): one inversion of `exec` -/

/-- The condition of a skip holds (R131 to R134). -/
def SkipTaken (i : Instr) (s : State) : Prop :=
  (∃ x nn, i = .seImm x nn ∧ s.v[x] = nn) ∨ (∃ x nn, i = .sneImm x nn ∧ s.v[x] ≠ nn) ∨
  (∃ x y, i = .seReg x y ∧ s.v[x] = s.v[y]) ∨ (∃ x y, i = .sneReg x y ∧ s.v[x] ≠ s.v[y])

/-- The instruction is one of the three that write a result and then the flag (R149). -/
def WritesResultThenFlag (i : Instr) (x y : RegIdx) : Prop :=
  i = .addReg x y ∨ i = .subReg x y ∨ i = .subnReg x y

/-- The kinds of next state that `exec i s` can answer, with what is known of `i` in each. -/
inductive ExecEffect (i : Instr) (s : State) : State → Prop
  /-- a raised fault: the fault entry alone (R107, R204) -/
  | fault (c : FaultCause) : raisedCause i s c →
      ExecEffect i s (enterFault c (s.pc - 2) (encode i) s)
  /-- a skip not taken, or a reserved word that does nothing (R130, R193) -/
  | idle : ExecEffect i s s
  | skip : SkipTaken i s → ExecEffect i s (s.setPc (s.pc + 2))
  | jp (nnn : Addr12) : i = .jp nnn → ExecEffect i s (s.setPc (nnn.setWidth 16))
  | jpV0 (nnn : Addr12) : i = .jpV0 nnn →
      ExecEffect i s (s.setPc (s.v[v0].setWidth 16 + nnn.setWidth 16))
  | call (nnn : Addr12) : i = .call nnn → s.sp ≠ s.config.stackDepth →
      ExecEffect i s ((s.setStack (s.pc :: s.stack)).setPc (nnn.setWidth 16))
  | ret (w : Word) (rest : List Word) : i = .ret → s.stack = w :: rest →
      ExecEffect i s ((s.setStack rest).setPc w)
  | index (nnn : Addr12) : i = .ldI nnn → ExecEffect i s (s.setI (nnn.setWidth 16))
  | write (x : RegIdx) (b : Byte) : i.regWrites = [x] → ExecEffect i s (s.setV x b)
  | random (x : RegIdx) (b : Byte) : i.regWrites = [x] →
      ExecEffect i s (s.consumeDraw.setV x b)
  | flagged (x y : RegIdx) (r : Byte) (f : Bool) : WritesResultThenFlag i x y →
      ExecEffect i s (writeResultThenFlag s x r f)
  | clear : i = .cls → ExecEffect i s (s.setFb Framebuffer.cleared)
  | draw (x y : RegIdx) (n : Nat) (fb : Framebuffer) (f : Bool) : i = .drw x y n →
      ExecEffect i s ((s.setFb fb).setV vF (flagByte f))

theorem ExecEffect.skip_or_idle {i : Instr} {s : State} {c : Prop} [Decidable c]
    (h : c → SkipTaken i s) : ExecEffect i s (s.setPc (if c then s.pc + 2 else s.pc)) := by
  split_ifs with hc
  · exact .skip (h hc)
  · exact .idle

/-- A failed scan is the cause that `DXYN` raises (R178). -/
theorem raisedCause_of_scanSprite_error {s : State} {x y : RegIdx} {n : Nat} {e : FaultCause}
    (h : scanSprite s x y n = .error e) : raisedCause (.drw x y n) s e := by
  obtain ⟨_, _, _, ⟨rfl, _⟩ | ⟨rfl, _⟩⟩ := scanSprite_error h
  · exact ⟨x, y, n, rfl, h⟩
  · exact ⟨x, y, n, rfl, h⟩

theorem execEffect_reservedWord {i : Instr} {s t : State}
    (hi : ∃ b, i = .rsve b ∨ i = .rsvf b) (h : reservedWord i s = .next t) : ExecEffect i s t := by
  cases hp : s.config.efPolicy with
  | noop => cases (reservedWord_noop s i hp).symm.trans h; exact .idle
  | fault =>
    cases (reservedWord_fault s i hp).symm.trans h
    exact .fault .unimplementedOpcode (.inr ⟨hp, hi⟩)

/-- Everything that an instruction can do to the state. -/
theorem exec_effect {i : Instr} {s t : State} (h : exec i s = .next t) : ExecEffect i s t := by
  cases i with
  | cls => cases h; exact .clear rfl
  | ret =>
    rcases stack_cases s with hs | ⟨w, l, hs⟩
    · cases (exec_ret_of_empty s hs).symm.trans h
      exact .fault .stackUnderflow ⟨rfl, by simp [hs]⟩
    · cases (exec_ret_of_cons s hs).symm.trans h; exact .ret w l rfl hs
  | jp nnn => cases h; exact .jp nnn rfl
  | call nnn =>
    by_cases hd : s.sp = s.config.stackDepth
    · cases (exec_call_of_full s nnn hd).symm.trans h
      exact .fault .stackOverflow ⟨⟨nnn, rfl⟩, hd⟩
    · cases (exec_call_of_room s nnn hd).symm.trans h; exact .call nnn rfl hd
  | seImm x nn =>
    cases (exec_seImm s x nn).symm.trans h
    exact .skip_or_idle fun hc => .inl ⟨x, nn, rfl, hc⟩
  | sneImm x nn =>
    cases (exec_sneImm s x nn).symm.trans h
    exact .skip_or_idle fun hc => .inr (.inl ⟨x, nn, rfl, hc⟩)
  | seReg x y =>
    cases (exec_seReg s x y).symm.trans h
    exact .skip_or_idle fun hc => .inr (.inr (.inl ⟨x, y, rfl, hc⟩))
  | sneReg x y =>
    cases (exec_sneReg s x y).symm.trans h
    exact .skip_or_idle fun hc => .inr (.inr (.inr ⟨x, y, rfl, hc⟩))
  | ldImm x | addImm x | ldReg x | orReg x | andReg x | xorReg x =>
    cases h; exact .write x _ rfl
  | addReg x y => cases h; exact .flagged x y _ _ (.inl rfl)
  | subReg x y => cases h; exact .flagged x y _ _ (.inr (.inl rfl))
  | subnReg x y => cases h; exact .flagged x y _ _ (.inr (.inr rfl))
  | shrReg x y => cases h; exact .fault .unimplementedOpcode (.inl ⟨x, y, rfl⟩)
  | ldI nnn => cases h; exact .index nnn rfl
  | jpV0 nnn => cases h; exact .jpV0 nnn rfl
  | rnd x nn => cases h; exact .random x _ rfl
  | drw x y n =>
    cases hs : scanSprite s x y n with
    | ok cs => cases (exec_drw_of_ok s hs).symm.trans h; exact .draw x y n _ _ rfl
    | error e =>
      cases (exec_drw_of_error s hs).symm.trans h
      exact .fault e (raisedCause_of_scanSprite_error hs)
  | rsve b => exact execEffect_reservedWord ⟨b, .inl rfl⟩ h
  | rsvf b => exact execEffect_reservedWord ⟨b, .inr rfl⟩ h

/-! ### What each kind of effect changes -/

theorem raisedCause_ne_ok {i : Instr} {s : State} {c : FaultCause} (h : raisedCause i s c) :
    c ≠ .ok := by
  rintro rfl; exact h

namespace ExecEffect

variable {i : Instr} {s t : State}

/-- A register that the row of R21 does not list as written keeps its value. -/
theorem reg_unchanged (h : ExecEffect i s t) {k : RegIdx} (hk : k ∉ i.regWrites) :
    t.v[k] = s.v[k] := by
  cases h with
  | write x b hw | random x b hw =>
    exact readReg_setV_of_ne _ b (by rintro rfl; exact hk (by simp [hw]))
  | flagged x y r f hi =>
    have hw : i.regWrites = [x, vF] := by rcases hi with rfl | rfl | rfl <;> rfl
    simp only [hw, List.mem_cons, List.not_mem_nil, or_false, not_or] at hk
    have hread := readReg_writeResultThenFlag s x k r f
    rwa [if_neg hk.2, if_neg hk.1] at hread
  | draw x y n fb f hi =>
    exact readReg_setV_of_ne _ _ (by rintro rfl; exact hk (by simp [hi, Instr.regWrites]))
  | _ => rfl

theorem index_changed (h : ExecEffect i s t) (hi : t.i ≠ s.i) : ∃ nnn, i = .ldI nnn := by
  cases h with
  | index nnn h => exact ⟨nnn, h⟩
  | _ => exact absurd rfl hi

theorem stack_changed (h : ExecEffect i s t) (hs : t.stack ≠ s.stack) :
    i = .ret ∨ ∃ nnn, i = .call nnn := by
  cases h with
  | ret w rest h => exact .inl h
  | call nnn h => exact .inr ⟨nnn, h⟩
  | _ => exact absurd rfl hs

theorem fb_changed (h : ExecEffect i s t) (hf : t.fb ≠ s.fb) :
    i = .cls ∨ ∃ x y n, i = .drw x y n := by
  cases h with
  | clear h => exact .inl h
  | draw x y n fb f h => exact .inr ⟨x, y, n, h⟩
  | _ => exact absurd rfl hf

/-- RAM, the timers and the parameters are out of reach of every instruction (R30, R31). -/
theorem out_of_reach (h : ExecEffect i s t) :
    t.ram = s.ram ∧ t.dt = s.dt ∧ t.st = s.st ∧ t.config = s.config := by
  cases h <;> exact ⟨rfl, rfl, rfl, rfl⟩

/-- A transfer or a skip, when `pc` changes (R24). -/
theorem pc_changed (h : ExecEffect i s t) (hpc : t.pc ≠ s.pc) :
    i = .ret ∨ (∃ nnn, i = .jp nnn ∨ i = .call nnn ∨ i = .jpV0 nnn) ∨
      (∃ x nn, i = .seImm x nn ∨ i = .sneImm x nn) ∨ ∃ x y, i = .seReg x y ∨ i = .sneReg x y := by
  cases h with
  | ret w rest h => exact .inl h
  | jp nnn h => exact .inr (.inl ⟨nnn, .inl h⟩)
  | call nnn h => exact .inr (.inl ⟨nnn, .inr (.inl h)⟩)
  | jpV0 nnn h => exact .inr (.inl ⟨nnn, .inr (.inr h)⟩)
  | skip h =>
    obtain ⟨x, n, h, -⟩ | ⟨x, n, h, -⟩ | ⟨x, y, h, -⟩ | ⟨x, y, h, -⟩ := h
    · exact .inr (.inr (.inl ⟨x, n, .inl h⟩))
    · exact .inr (.inr (.inl ⟨x, n, .inr h⟩))
    · exact .inr (.inr (.inr ⟨x, y, .inl h⟩))
    · exact .inr (.inr (.inr ⟨x, y, .inr h⟩))
  | _ => exact absurd rfl hpc

/-- The status fields change by a fault entry alone, which writes nothing else (R204). -/
theorem status_changed (h : ExecEffect i s t)
    (hs : t.halted ≠ s.halted ∨ t.faultCause ≠ s.faultCause ∨ t.faultOpcode ≠ s.faultOpcode ∨
      t.faultPc ≠ s.faultPc) :
    t.faultCause ≠ .ok ∧
      t = { s with halted := true, faultCause := t.faultCause, faultOpcode := t.faultOpcode,
                   faultPc := t.faultPc } := by
  cases h with
  | fault c hc => exact ⟨raisedCause_ne_ok hc, rfl⟩
  | _ => exact absurd hs (by simp [writeResultThenFlag])

end ExecEffect

theorem toNat_setWidth_addr (nnn : Addr12) : (nnn.setWidth 16 : Word).toNat = nnn.toNat :=
  BitVec.toNat_setWidth_of_le (by decide)

/-- The target of `BNNN` is the integer sum: it stays below `2 ^ 16` (R123). -/
theorem toNat_offset (b : Byte) (nnn : Addr12) :
    (b.setWidth 16 + nnn.setWidth 16 : Word).toNat = b.toNat + nnn.toNat := by
  have hb := b.isLt
  have hn := nnn.isLt
  rw [BitVec.toNat_add, BitVec.toNat_setWidth_of_le (by decide), toNat_setWidth_addr,
    Nat.mod_eq_of_lt (by omega)]

/-! ### What an operation of the host can do (R226): one inversion of `performHostOp` -/

/-- A step with a next state: the core was running, and one of the cases of R105 applies. -/
theorem step_next {s t : State} (h : step s = .next t) :
    s.halted = false ∧
    (t = enterFault .fetchOutOfRange s.pc 0x0000#16 s ∨
      s.pc.toNat ≤ 4094 ∧
        ((∃ op, t = enterFault .invalidOpcode s.pc op (advancePc s)) ∨
          ∃ i, ExecEffect i (advancePc s) t)) := by
  cases hh : s.halted with
  | true => cases (step_of_halted hh).symm.trans h
  | false =>
    refine ⟨rfl, ?_⟩
    have hfetch {op : Word} (hf : fetch s = some op) : s.pc.toNat ≤ 4094 := by
      by_contra hc
      cases hf.symm.trans (fetch_eq_none.2 (by omega))
    rcases step_cases hh with ⟨-, he⟩ | ⟨op, e, hf, -, he⟩ | ⟨op, i, hf, -, he⟩
    · cases he.symm.trans h; exact .inl rfl
    · cases he.symm.trans h; exact .inr ⟨hfetch hf, .inl ⟨op, rfl⟩⟩
    · exact .inr ⟨hfetch hf, .inr ⟨i, exec_effect (he.symm.trans h)⟩⟩

/-- RAM, the timers and the parameters are out of reach of a step (R30, R31). -/
theorem step_out_of_reach {s t : State} (h : step s = .next t) :
    t.ram = s.ram ∧ t.dt = s.dt ∧ t.st = s.st ∧ t.config = s.config := by
  obtain ⟨-, rfl | ⟨-, ⟨op, rfl⟩ | ⟨i, hi⟩⟩⟩ := step_next h
  · exact ⟨rfl, rfl, rfl, rfl⟩
  · exact ⟨rfl, rfl, rfl, rfl⟩
  · exact hi.out_of_reach

/-- The state that each operation of the host can lead to. -/
inductive HostEffect (op : HostOp) (s : State) : State → Prop
  | reset : op = .reset → HostEffect op s (resetCore s)
  | load (bytes : List Byte) : op = .load bytes → bytes.length ≤ 3584 →
      HostEffect op s (s.setRam (s.ram.writeAll programBase bytes))
  | step (draw : Byte) (u : State) : op = .step draw →
      Machine.step (s.supplyDraw (some draw)) = .next u →
      HostEffect op s (u.supplyDraw s.suppliedDraw)
  | clear : op = .clearDisplay → HostEffect op s (s.setFb Framebuffer.cleared)
  | tick : op = .timerTick → s.config.timerMode = .tick →
      HostEffect op s (s.setTimers (tickTimer s.dt) (tickTimer s.st))
  /-- a refused load, a step of a halted core, or an operation that only reads -/
  | idle : HostEffect op s s

/-- Everything that an operation of the host can do to the state. -/
theorem performHostOp_effect {op : HostOp} {s t : State} {r : HostResult}
    (h : performHostOp op s = some (t, r)) : HostEffect op s t := by
  cases op with
  | reset => cases h; exact .reset rfl
  | load bytes =>
    cases h
    by_cases hl : bytes.length ≤ 3584
    · rw [load_of_le hl]; exact .load bytes rfl hl
    · rw [load_of_gt (by omega)]; exact .idle
  | step draw =>
    obtain ⟨c, hstep, -⟩ := performHostOp_step.1 h
    rcases stepOp_some hstep with ⟨u, hu, rfl, -⟩ | ⟨-, rfl, -⟩
    · exact .step draw u rfl hu
    · exact .idle
  | framebufferSnapshot => cases h; exact .idle
  | clearDisplay => cases h; exact .clear rfl
  | readState a => cases h; exact .idle
  | timerTick =>
    cases hm : s.config.timerMode with
    | hold => simp [performHostOp, timerTick, hm] at h
    | tick =>
      obtain ⟨rfl, -⟩ : s.setTimers (tickTimer s.dt) (tickTimer s.st) = t ∧ HostResult.none = r := by
        simpa [performHostOp, timerTick, hm] using h
      exact .tick rfl hm

namespace HostEffect

variable {op : HostOp} {s t : State}

/-- `V`, `pc`, `I`, the stack and the status fields are written by a reset and a step alone (R233). -/
theorem reset_or_step_or_core_unchanged (h : HostEffect op s t) :
    (op = .reset ∨ ∃ d, op = .step d) ∨
      t = { s with dt := t.dt, st := t.st, ram := t.ram, fb := t.fb } := by
  cases h with
  | reset h => exact .inl (.inl h)
  | step d u h => exact .inl (.inr ⟨d, h⟩)
  | _ => exact .inr rfl

theorem fb_changed (h : HostEffect op s t) (hf : t.fb ≠ s.fb) :
    op = .reset ∨ op = .clearDisplay ∨ ∃ d, op = .step d := by
  cases h with
  | reset h => exact .inl h
  | clear h => exact .inr (.inl h)
  | step d u h => exact .inr (.inr ⟨d, h⟩)
  | _ => exact absurd rfl hf

theorem ram_changed (h : HostEffect op s t) (hm : t.ram ≠ s.ram) :
    op = .reset ∨ ∃ bytes, op = .load bytes := by
  cases h with
  | reset h => exact .inl h
  | load bytes h => exact .inr ⟨bytes, h⟩
  | step d u h hu => exact absurd (step_out_of_reach hu).1 hm
  | _ => exact absurd rfl hm

theorem timers_changed (h : HostEffect op s t) (ht : t.dt ≠ s.dt ∨ t.st ≠ s.st) :
    op = .reset ∨ op = .timerTick ∧ s.config.timerMode = .tick := by
  cases h with
  | reset h => exact .inl h
  | tick h hm => exact .inr ⟨h, hm⟩
  | step d u h hu =>
    obtain ⟨-, hdt, hst, -⟩ := step_out_of_reach hu
    exact absurd ht (by simp [hdt, hst])
  | _ => exact absurd ht (by simp)

theorem config_unchanged (h : HostEffect op s t) : t.config = s.config := by
  cases h with
  | step d u h hu =>
    obtain ⟨-, -, -, hconfig⟩ := step_out_of_reach hu
    exact hconfig
  | _ => rfl

end HostEffect

/-! ### The writers of each piece of state (R21, R24, R233) -/

/-- Settles O39: of the kinds of effect only the transfers and a taken skip move `pc`. -/
theorem onlyControlFlowMovesThePc : Obligations.OnlyControlFlowMovesThePc := by
  intro i s t h hpc
  cases exec_effect h with
  | skip hs => exact ⟨rfl, .inr (.inr (.inr (.inr ⟨rfl, hs⟩)))⟩
  | jp nnn hi => exact ⟨rfl, .inl ⟨nnn, hi, toNat_setWidth_addr nnn⟩⟩
  | call nnn hi => exact ⟨rfl, .inr (.inl ⟨nnn, hi, toNat_setWidth_addr nnn⟩)⟩
  | ret w rest hi hs => exact ⟨rfl, .inr (.inr (.inl ⟨rest, hi, hs⟩))⟩
  | jpV0 nnn hi => exact ⟨rfl, .inr (.inr (.inr (.inl ⟨nnn, hi, toNat_offset _ nnn⟩)))⟩
  | _ => exact absurd rfl hpc

/-- Settles O40: each piece of state changes under the effects that name its writers. -/
theorem eachStateHasItsWriters : Obligations.EachStateHasItsWriters := by
  constructor
  · intro i s t h
    have he := exec_effect h
    obtain ⟨hram, hdt, hst, hconfig⟩ := he.out_of_reach
    exact ⟨fun k hk => not_not.1 fun hw => hk (he.reg_unchanged hw), he.pc_changed,
      he.index_changed, he.stack_changed, he.fb_changed, hram, hdt, hst, hconfig,
      he.status_changed⟩
  · intro op s t r h
    have he := performHostOp_effect h
    refine ⟨fun hv => ?_, fun hv => ?_, he.fb_changed, he.ram_changed, he.timers_changed,
      he.config_unchanged⟩
    all_goals
      refine he.reset_or_step_or_core_unchanged.resolve_right fun ht => ?_
      rw [ht] at hv
      simp at hv

/-! ### Register noninterference (R21) -/

/-- `t'` is `t` but for registers that neither run has written: `t` comes from a state with the
registers of `s`, and `t'` from one with the registers `v'`. -/
def SameButUntouched (s : State) (v' : Vector Byte 16) (t t' : State) : Prop :=
  t' = { t with v := t'.v } ∧
    ∀ k : RegIdx, t'.v[k] = t.v[k] ∨ (t'.v[k] = v'[k] ∧ t.v[k] = s.v[k])

namespace SameButUntouched

variable {s t t' : State} {v' : Vector Byte 16}

theorem refl (ht : t.v = s.v) : SameButUntouched s v' t { t with v := v' } :=
  ⟨rfl, fun k => .inr ⟨rfl, by rw [ht]⟩⟩

/-- The same byte written to the same register on both sides. -/
theorem setV (h : SameButUntouched s v' t t') (x : RegIdx) (b : Byte) :
    SameButUntouched s v' (t.setV x b) (t'.setV x b) := by
  obtain ⟨hrest, hreg⟩ := h
  refine ⟨by rw [hrest]; rfl, fun k => ?_⟩
  simp only [State.setV_v, getElem_set_reg]
  split_ifs
  · exact .inl rfl
  · exact hreg k

end SameButUntouched

/-- Two runs whose next states are the same but for untouched registers. -/
def RunsAlike (i : Instr) (s : State) (v' : Vector Byte 16) : Prop :=
  ∃ t t', exec i s = .next t ∧ exec i { s with v := v' } = .next t' ∧ SameButUntouched s v' t t'

namespace RunsAlike

variable {i : Instr} {s : State} {v' : Vector Byte 16}

/-- An instruction that writes no register does the same update on both sides. -/
theorem of_update {t : State} (h : exec i s = .next t)
    (h' : exec i { s with v := v' } = .next { t with v := v' }) (ht : t.v = s.v) :
    RunsAlike i s v' :=
  ⟨t, _, h, h', .refl ht⟩

/-- An instruction that writes one register writes the same byte on both sides. -/
theorem of_write {t : State} {x : RegIdx} {b : Byte} (h : exec i s = .next (t.setV x b))
    (h' : exec i { s with v := v' } = .next (({ t with v := v' } : State).setV x b))
    (ht : t.v = s.v) : RunsAlike i s v' :=
  ⟨_, _, h, h', (SameButUntouched.refl ht).setV x b⟩

/-- Result, then flag, both the same on both sides (R149). -/
theorem of_flagged {x : RegIdx} {b : Byte} {f : Bool}
    (h : exec i s = .next (writeResultThenFlag s x b f))
    (h' : exec i { s with v := v' } = .next (writeResultThenFlag { s with v := v' } x b f)) :
    RunsAlike i s v' :=
  ⟨_, _, h, h', ((SameButUntouched.refl rfl).setV x b).setV vF (flagByte f)⟩

/-- The parameters decide what a reserved word does, and no register (R193). -/
theorem of_reservedWord (h : ∀ u, exec i u = reservedWord i u) : RunsAlike i s v' := by
  cases hp : s.config.efPolicy with
  | noop =>
    exact of_update ((h s).trans (reservedWord_noop s i hp))
      ((h _).trans (reservedWord_noop _ i hp)) rfl
  | fault =>
    exact of_update ((h s).trans (reservedWord_fault s i hp))
      ((h _).trans (reservedWord_fault _ i hp)) rfl

/-- `DXYN` scans the same sprite when its two operands are the same (R175). -/
theorem of_drw {x y : RegIdx} {n : Nat} (hx : v'[x] = s.v[x]) (hy : v'[y] = s.v[y]) :
    RunsAlike (.drw x y n) s v' := by
  have hscan : scanSprite { s with v := v' } x y n = scanSprite s x y n :=
    scanSprite_congr (s := s) (s' := { s with v := v' }) rfl rfl hx hy n
  cases hs : scanSprite s x y n with
  | ok cs => exact of_write (exec_drw_of_ok s hs) (exec_drw_of_ok _ (hscan.trans hs)) rfl
  | error e => exact of_update (exec_drw_of_error s hs) (exec_drw_of_error _ (hscan.trans hs)) rfl

end RunsAlike

theorem operands_agree {v v' : Vector Byte 16} {x y : RegIdx} (hv : ∀ k ∈ [x, y], v'[k] = v[k]) :
    v'[x] = v[x] ∧ v'[y] = v[y] :=
  ⟨hv x (by simp), hv y (by simp)⟩

/-- With other values in the registers that its row of R21 does not list as read, an instruction
runs alike. -/
theorem exec_runsAlike {i : Instr} {s : State} {v' : Vector Byte 16}
    (hv : ∀ k ∈ i.regReads, v'[k] = s.v[k]) : RunsAlike i s v' := by
  cases i with
  | cls => exact .of_update (exec_cls s) rfl rfl
  | ret =>
    rcases stack_cases s with hs | ⟨w, l, hs⟩
    · exact .of_update (exec_ret_of_empty s hs) (exec_ret_of_empty _ hs) rfl
    · exact .of_update (exec_ret_of_cons s hs) (exec_ret_of_cons _ hs) rfl
  | jp nnn => exact .of_update (exec_jp s nnn) rfl rfl
  | call nnn =>
    by_cases hd : s.sp = s.config.stackDepth
    · exact .of_update (exec_call_of_full s nnn hd) (exec_call_of_full _ nnn hd) rfl
    · exact .of_update (exec_call_of_room s nnn hd) (exec_call_of_room _ nnn hd) rfl
  | jpV0 nnn =>
    have h0 : v'[v0] = s.v[v0] := hv v0 List.mem_cons_self
    exact .of_update (exec_jpV0 s nnn) (by rw [exec_jpV0, h0]; rfl) rfl
  | seImm x nn =>
    have hx : v'[x] = s.v[x] := hv x List.mem_cons_self
    exact .of_update (exec_seImm s x nn) (by rw [exec_seImm, hx]; rfl) rfl
  | sneImm x nn =>
    have hx : v'[x] = s.v[x] := hv x List.mem_cons_self
    exact .of_update (exec_sneImm s x nn) (by rw [exec_sneImm, hx]; rfl) rfl
  | seReg x y =>
    obtain ⟨hx, hy⟩ := operands_agree hv
    exact .of_update (exec_seReg s x y) (by rw [exec_seReg, hx, hy]; rfl) rfl
  | sneReg x y =>
    obtain ⟨hx, hy⟩ := operands_agree hv
    exact .of_update (exec_sneReg s x y) (by rw [exec_sneReg, hx, hy]; rfl) rfl
  | ldImm x nn => exact .of_write (exec_ldImm s x nn) rfl rfl
  | addImm x nn =>
    have hx : v'[x] = s.v[x] := hv x List.mem_cons_self
    exact .of_write (exec_addImm s x nn) (by rw [exec_addImm, hx]) rfl
  | ldReg x y =>
    have hy : v'[y] = s.v[y] := hv y List.mem_cons_self
    exact .of_write (exec_ldReg s x y) (by rw [exec_ldReg, hy]) rfl
  | orReg x y =>
    obtain ⟨hx, hy⟩ := operands_agree hv
    exact .of_write (exec_orReg s x y) (by rw [exec_orReg, hx, hy]) rfl
  | andReg x y =>
    obtain ⟨hx, hy⟩ := operands_agree hv
    exact .of_write (exec_andReg s x y) (by rw [exec_andReg, hx, hy]) rfl
  | xorReg x y =>
    obtain ⟨hx, hy⟩ := operands_agree hv
    exact .of_write (exec_xorReg s x y) (by rw [exec_xorReg, hx, hy]) rfl
  | addReg x y =>
    obtain ⟨hx, hy⟩ := operands_agree hv
    exact .of_flagged (exec_addReg s x y) (by rw [exec_addReg, hx, hy])
  | subReg x y =>
    obtain ⟨hx, hy⟩ := operands_agree hv
    exact .of_flagged (exec_subReg s x y) (by rw [exec_subReg, hx, hy])
  | subnReg x y =>
    obtain ⟨hx, hy⟩ := operands_agree hv
    exact .of_flagged (exec_subnReg s x y) (by rw [exec_subnReg, hx, hy])
  | shrReg x y => exact .of_update (exec_shrReg s x y) rfl rfl
  | ldI nnn => exact .of_update (exec_ldI s nnn) rfl rfl
  | rnd x nn => exact .of_write (exec_rnd s x nn) rfl rfl
  | drw x y n =>
    obtain ⟨hx, hy⟩ := operands_agree hv
    exact .of_drw hx hy
  | rsve bits => exact .of_reservedWord fun u => exec_rsve u bits
  | rsvf bits => exact .of_reservedWord fun u => exec_rsvf u bits

/-- Settles O37: writes by the inversion of `exec`, reads by running it on other registers. -/
theorem registersAreAccessedAsTheTableSays : Obligations.RegistersAreAccessedAsTheTableSays := by
  refine ⟨fun i s t h => ⟨fun k hk => (exec_effect h).reg_unchanged hk, fun v' hv => ?_⟩,
    fun op s t r h hreset hstep => ?_, fun s k => rfl⟩
  · obtain ⟨u, t', hu, ht', hsame⟩ := exec_runsAlike hv
    cases hu.symm.trans h
    exact ⟨t', ht', hsame⟩
  · obtain (hop | ⟨d, hop⟩) | ht := (performHostOp_effect h).reset_or_step_or_core_unchanged
    · exact absurd hop hreset
    · exact absurd hop (hstep d)
    · rw [ht]

/-! ### The flag (R22) -/

theorem flagByte_eq_zero_or_one (f : Bool) : flagByte f = 0#8 ∨ flagByte f = 1#8 := by
  cases f
  · exact .inl rfl
  · exact .inr rfl

/-- The flag is written last, so `VF` holds it whatever `X` is (R149). -/
theorem flag_after_result {i : Instr} {s t : State} {x : RegIdx} {r : Byte} {f : Bool}
    (h : exec i s = .next t) (he : exec i s = .next (writeResultThenFlag s x r f)) :
    t.v[vF] = 0#8 ∨ t.v[vF] = 1#8 := by
  cases he.symm.trans h
  have hread : (writeResultThenFlag s x r f).v[vF] = flagByte f :=
    (readReg_writeResultThenFlag s x vF r f).trans (if_pos rfl)
  rw [hread]
  exact flagByte_eq_zero_or_one f

theorem flag_after_drw {s t : State} {x y : RegIdx} {n : Nat} (ht : t.halted = false)
    (h : exec (.drw x y n) s = .next t) : t.v[vF] = 0#8 ∨ t.v[vF] = 1#8 := by
  cases hs : scanSprite s x y n with
  | error e => cases (exec_drw_of_error s hs).symm.trans h; cases ht
  | ok cs =>
    cases (exec_drw_of_ok s hs).symm.trans h
    rw [← readReg, readReg_setV_self]
    exact flagByte_eq_zero_or_one _

/-- An instruction that changes `VF` writes it as its one register or is one of the three that
write a result and then the flag. -/
theorem ExecEffect.flag_changed {i : Instr} {s t : State} (h : ExecEffect i s t)
    (hf : t.v[vF] ≠ s.v[vF]) : i.regWrites = [vF] ∨ ∃ x y, WritesResultThenFlag i x y := by
  have hmem : vF ∈ i.regWrites := not_not.1 fun hw => hf (h.reg_unchanged hw)
  cases h with
  | write x b hw | random x b hw =>
    rw [hw, List.mem_singleton] at hmem
    exact .inl (hmem ▸ hw)
  | flagged x y r f hi => exact .inr ⟨x, y, hi⟩
  | draw x y n fb f hi => exact .inl (by rw [hi]; rfl)
  | _ => exact absurd rfl hf

/-- Settles O38: the flag is a byte 0 or 1 written last. -/
theorem flagIsZeroOrOne : Obligations.FlagIsZeroOrOne := by
  intro s t _ ht
  refine ⟨fun x y h => flag_after_result h (exec_addReg s x y),
    fun x y h => flag_after_result h (exec_subReg s x y),
    fun x y h => flag_after_result h (exec_subnReg s x y),
    fun x y n h => flag_after_drw ht h, fun i h hf => ?_⟩
  obtain hw | ⟨x, y, hi | hi | hi⟩ := (exec_effect h).flag_changed hf
  · exact .inl hw
  · exact .inr (.inl ⟨x, y, hi⟩)
  · exact .inr (.inr (.inl ⟨x, y, hi⟩))
  · exact .inr (.inr (.inr ⟨x, y, hi⟩))

/-! ### The invariant of R38: what each update of the state asks for -/

namespace State.Inv

variable {s : State}

theorem setPc (hs : s.Inv) {w : Word} (h : w.toNat ≤ 0x10FE) : (s.setPc w).Inv :=
  { hs with pcInRange := h }

theorem setV (hs : s.Inv) (x : RegIdx) (b : Byte) : (s.setV x b).Inv := { hs with }

theorem setFb (hs : s.Inv) (fb : Framebuffer) : (s.setFb fb).Inv := { hs with }

theorem supplyDraw (hs : s.Inv) (r : Option Byte) : (s.supplyDraw r).Inv := { hs with }

theorem consumeDraw (hs : s.Inv) : s.consumeDraw.Inv := { hs with }

theorem setI (hs : s.Inv) {w : Word} (h : w.toNat ≤ 0xFFF) : (s.setI w).Inv :=
  { hs with indexInRange := h }

theorem enterFault (hs : s.Inv) {c : FaultCause} (hc : c ≠ .ok) (pc op : Word) :
    (enterFault c pc op s).Inv :=
  { hs with haltedIffCause := by simp [hc] }

/-- A return address in range, on a stack with room (R28, R38). -/
theorem push (hs : s.Inv) (hroom : s.sp ≠ s.config.stackDepth) {w : Word}
    (hw : 2 ≤ w.toNat ∧ w.toNat ≤ 0x1000) : (s.setStack (w :: s.stack)).Inv :=
  { hs with
    stackInRange := List.forall_mem_cons.2 ⟨hw, hs.stackInRange⟩
    stackFits := Nat.lt_of_le_of_ne hs.stackFits hroom }

theorem pop (hs : s.Inv) {w : Word} {rest : List Word} (h : s.stack = w :: rest) :
    (s.setStack rest).Inv :=
  { hs with
    stackInRange := fun a ha => hs.stackInRange a (h ▸ List.mem_cons_of_mem w ha)
    stackFits := by
      have hfits := hs.stackFits
      rw [State.sp, h, List.length_cons] at hfits
      exact Nat.le_of_succ_le hfits }

/-- In `tick` mode the timers are free (R38). -/
theorem setTimers (hs : s.Inv) (h : s.config.timerMode = .tick) (d e : Byte) :
    (s.setTimers d e).Inv :=
  { hs with timersHold := fun hhold => by cases h.symm.trans hhold }

/-- A load writes from `PROGRAM_BASE` on, so RAM below stays zero (R51, R228). -/
theorem load (hs : s.Inv) {bytes : List Byte} (hl : bytes.length ≤ 3584) :
    (s.setRam (s.ram.writeAll programBase bytes)).Inv :=
  have hend : programBase + bytes.length ≤ 4096 := by simp only [programBase]; omega
  { hs with
    lowRamZero := fun a ha => by
      rw [State.setRam_ram, Memory.byteAt_writeAll hs.ramCanonical hend, dif_neg (by omega)]
      exact hs.lowRamZero a ha
    ramCanonical := Memory.wf_writeAll hs.ramCanonical hend }

end State.Inv

/-! ### The invariant under steps and operations -/

theorem toNat_advanced_pc {s : State} (h : s.pc.toNat ≤ 4094) :
    (advancePc s).pc.toNat = s.pc.toNat + 2 := by
  rw [advancePc_pc, BitVec.toNat_add]
  exact Nat.mod_eq_of_lt (Nat.lt_of_le_of_lt (Nat.add_le_add_right h 2) (by decide))

/-- Every effect of an instruction keeps the invariant, with `pc` as an instruction finds it: the
fetch address, at most 4094, plus 2. -/
theorem ExecEffect.keeps_inv {i : Instr} {s t : State} (h : ExecEffect i s t) (hs : s.Inv)
    (hpc : 2 ≤ s.pc.toNat ∧ s.pc.toNat ≤ 0x1000) : t.Inv := by
  have haddr (nnn : Addr12) : (nnn.setWidth 16 : Word).toNat ≤ 0xFFF := by
    rw [toNat_setWidth_addr]
    exact Nat.le_of_lt_succ nnn.isLt
  cases h with
  | fault c hc => exact hs.enterFault (raisedCause_ne_ok hc) _ _
  | idle => exact hs
  | skip _ =>
    have hadd : (s.pc + 2).toNat = s.pc.toNat + 2 := by bv_omega
    exact hs.setPc (by omega)
  | jp nnn _ => exact hs.setPc ((haddr nnn).trans (by decide))
  | jpV0 nnn _ =>
    have hv := s.v[v0].isLt
    have hn := nnn.isLt
    exact hs.setPc (by rw [toNat_offset]; omega)
  | call nnn _ hroom => exact (hs.push hroom hpc).setPc ((haddr nnn).trans (by decide))
  | ret w rest _ hstack =>
    have hw := (hs.stackInRange w (by simp [hstack])).2
    exact (hs.pop hstack).setPc (hw.trans (by decide))
  | index nnn _ => exact hs.setI (haddr nnn)
  | write x b _ => exact hs.setV x b
  | random x b _ => exact hs.consumeDraw.setV x b
  | flagged x y r f _ => exact (hs.setV x r).setV vF _
  | clear _ => exact hs.setFb _
  | draw x y n fb f _ => exact (hs.setFb fb).setV vF _

/-- Settles O54, by the cases of a step (R105). -/
theorem stepKeepsTheInvariant : Obligations.StepKeepsTheInvariant := by
  intro s t hs h
  obtain ⟨-, rfl | ⟨hpc, hrun⟩⟩ := step_next h
  · exact hs.enterFault (by decide) _ _
  · have hadd := toNat_advanced_pc hpc
    have hadvanced : (advancePc s).Inv :=
      hs.setPc (w := s.pc + 2) (by rw [advancePc_pc] at hadd; omega)
    obtain ⟨op, rfl⟩ | ⟨i, hi⟩ := hrun
    · exact hadvanced.enterFault (by decide) _ _
    · exact hi.keeps_inv hadvanced (by omega)

/-- Settles O53: every clause is one about the reset values (R37). -/
theorem resetMeetsTheInvariant : Obligations.ResetMeetsTheInvariant := by
  intro c hc
  exact
    { pcInRange := (by decide : (0x200#16).toNat ≤ 0x10FE)
      indexInRange := Nat.zero_le _
      stackInRange := fun w hw => absurd hw List.not_mem_nil
      stackFits := Nat.zero_le _
      lowRamZero := fun _ _ => rfl
      timersHold := fun _ => ⟨rfl, rfl⟩
      haltedIffCause := ⟨fun _ => rfl, fun _ => rfl⟩
      ramCanonical := Memory.wf_nil
      depthLegal := hc }

theorem resetCore_inv {s : State} (hs : s.Inv) : (resetCore s).Inv :=
  { resetMeetsTheInvariant s.config hs.depthLegal with }

/-- Settles O57, by the effects of the host's operations (R226). -/
theorem hostOperationsKeepTheInvariant : Obligations.HostOperationsKeepTheInvariant := by
  intro op s t r hs h
  cases performHostOp_effect h with
  | reset _ => exact resetCore_inv hs
  | load bytes _ hl => exact hs.load hl
  | step draw u _ hu => exact (stepKeepsTheInvariant _ u (hs.supplyDraw _) hu).supplyDraw _
  | clear _ => exact hs.setFb _
  | tick _ hm => exact hs.setTimers hm _ _
  | idle => exact hs

/-- Settles O55, by induction on how the state is reached. -/
theorem reachableStatesMeetTheInvariant : Obligations.ReachableStatesMeetTheInvariant := by
  intro s hs
  induction hs with
  | reset c hc => exact resetMeetsTheInvariant c hc
  | operation op r _ h ih => exact hostOperationsKeepTheInvariant op _ _ r ih h

/-- Settles O52: reset gives `State.reset` but for the model's own fields. -/
theorem resetGivesTheResetValues : Obligations.ResetGivesTheResetValues := by
  intro s
  have hv (k : RegIdx) : State.reset.v[k] = 0x00#8 := by simp [State.reset]
  have hram (addr : Nat) (h : addr < 4096) : State.reset.ram.read addr = some 0x00#8 :=
    Memory.read_eq h
  have hfb (c : FbCell) : State.reset.fb.isLit c = false := isLit_cleared c
  refine ⟨resetCore s, rfl, rfl, ?_⟩
  rintro t (rfl | rfl)
  · exact ⟨hv, rfl, rfl, rfl, rfl, hram, rfl, rfl, hfb, rfl, rfl, rfl, rfl⟩
  · exact ⟨hv, rfl, rfl, rfl, rfl, hram, rfl, rfl, hfb, rfl, rfl, rfl, rfl⟩

end Sys2Proof.Machine

/-! PROOFS for 20_memory.md. The statements about RAM are read off the laws of its reads and writes
(`Memory.byteAt_write`, `fetch_eq_some`) and the effects of a step and of the host's operations. -/

namespace Sys2Proof.Machine

/-! ### The fetched word (R52) -/

/-- The high byte of a word is the byte it was formed with first (R52). -/
@[simp] theorem highByte_wordOfBytes (b0 b1 : Byte) : highByte (wordOfBytes b0 b1) = b0 :=
  BitVec.extractLsb'_append_eq_left

@[simp] theorem lowByte_wordOfBytes (b0 b1 : Byte) : lowByte (wordOfBytes b0 b1) = b1 :=
  BitVec.extractLsb'_append_eq_right

theorem toNat_wordOfBytes (b0 b1 : Byte) :
    (wordOfBytes b0 b1).toNat = b0.toNat * 256 + b1.toNat :=
  calc (b0 ++ b1).toNat = b0.toNat <<< 8 ||| b1.toNat := BitVec.toNat_append b0 b1
    _ = b0.toNat <<< 8 + b1.toNat := (Nat.shiftLeft_add_eq_or_of_lt b1.isLt b0.toNat).symm
    _ = b0.toNat * 256 + b1.toNat := by rw [Nat.shiftLeft_eq]

/-- Settles O6: the fetched word is the two bytes, the one at the lower address first. -/
theorem fetchIsBigEndian : Obligations.FetchIsBigEndian := fun _ hpc =>
  ⟨_, fetch_eq_some hpc, toNat_wordOfBytes _ _, highByte_wordOfBytes _ _, lowByte_wordOfBytes _ _⟩

/-! ### Reads after writes (R50, R54) -/

/-- Memories that hold the same byte at an address read the same there. -/
theorem Memory.read_congr {m m' : Memory} {addr : Nat} (h : m.byteAt addr = m'.byteAt addr) :
    m.read addr = m'.read addr := by
  rw [Memory.read, Memory.read, h]

/-- Settles O7, by the laws of a write and of a read. -/
theorem ramReadsWhatWasWritten : Obligations.RamReadsWhatWasWritten := by
  intro m addr k b hm haddr
  refine ⟨Memory.wf_write hm haddr b, ?_, fun hk => ?_, Memory.read_eq_none.2, Memory.read_eq⟩
  · rw [Memory.read_eq haddr, Memory.byteAt_write_self hm]
  · exact Memory.read_congr (Memory.byteAt_write_of_ne m hk b)

/-! ### The writers of RAM (R56) -/

/-- Bytes copied from `addr` on leave every lower address as before, in any memory (R228). -/
theorem Memory.byteAt_writeAll_of_lt (m : Memory) {addr k : Nat} (hk : k < addr)
    (bs : List Byte) : (m.writeAll addr bs).byteAt k = m.byteAt k := by
  induction bs generalizing m addr with
  | nil => rfl
  | cons b bs ih =>
    calc (Memory.writeAll (m.write addr b) (addr + 1) bs).byteAt k
        = (m.write addr b).byteAt k := ih _ (Nat.lt_succ_of_lt hk)
      _ = m.byteAt k := Memory.byteAt_write_of_ne m hk.ne b

/-- A load writes from `PROGRAM_BASE` on, or, refused, nothing (R51, R228). -/
theorem byteAt_load_of_lt (s : State) (bytes : List Byte) {addr : Nat} (h : addr < programBase) :
    (load bytes s).1.ram.byteAt addr = s.ram.byteAt addr := by
  by_cases hl : bytes.length ≤ 3584
  · rw [load_of_le hl]
    exact Memory.byteAt_writeAll_of_lt s.ram h bytes
  · rw [load_of_gt (by omega)]

/-- Settles O9: RAM is out of reach of an instruction and of a step, and of the host's operations
only a reset and a load change it. -/
theorem noInstructionWritesRam : Obligations.NoInstructionWritesRam := by
  refine ⟨fun i s t h addr => ?_, fun s t h addr => ?_,
    fun op s t r h hreset hload addr => ?_, fun bytes s t r h addr haddr => ?_⟩
  · obtain ⟨hram, -⟩ := (exec_effect h).out_of_reach
    rw [hram]
  · obtain ⟨hram, -⟩ := step_out_of_reach h
    rw [hram]
  · have hram : t.ram = s.ram := by
      by_contra hne
      obtain hop | ⟨bytes, hop⟩ := (performHostOp_effect h).ram_changed hne
      · exact hreset hop
      · exact hload bytes hop
    rw [hram]
  · cases h
    exact Memory.read_congr (byteAt_load_of_lt s bytes haddr)

end Sys2Proof.Machine

/-! PROOFS for 30_encoding.md. A word that matches a row of the opcode map decodes to the row's
instruction with the word's fields as operands (`decode_of_row`); a word that decodes is the word of
what it decodes to (`encode_of_decode`). The statements are read off these two and the row that an
encoded instruction matches (`encode_matches_row`). -/

namespace Sys2Proof

open Laws

/-! ### A word on a row of the opcode map (R76) -/

/-- The word of an instruction matches the instruction's own row. -/
theorem encode_matches_row : ∀ i : Instr, RowMatch.Statement i
  | .cls => RowMatch.cls
  | .ret => RowMatch.ret
  | .jp nnn => RowMatch.jp nnn
  | .call nnn => RowMatch.call nnn
  | .seImm x nn => RowMatch.seImm x nn
  | .sneImm x nn => RowMatch.sneImm x nn
  | .seReg x y => RowMatch.seReg x y
  | .ldImm x nn => RowMatch.ldImm x nn
  | .addImm x nn => RowMatch.addImm x nn
  | .ldReg x y => RowMatch.ldReg x y
  | .orReg x y => RowMatch.orReg x y
  | .andReg x y => RowMatch.andReg x y
  | .xorReg x y => RowMatch.xorReg x y
  | .addReg x y => RowMatch.addReg x y
  | .subReg x y => RowMatch.subReg x y
  | .shrReg x y => RowMatch.shrReg x y
  | .subnReg x y => RowMatch.subnReg x y
  | .sneReg x y => RowMatch.sneReg x y
  | .ldI nnn => RowMatch.ldI nnn
  | .jpV0 nnn => RowMatch.jpV0 nnn
  | .rnd x nn => RowMatch.rnd x nn
  | .drw x y n => RowMatch.drw x y n
  | .rsve bits => RowMatch.rsve bits
  | .rsvf bits => RowMatch.rsvf bits

/-- The instruction of the same row with the fields of `op` as its operands (R71, R72). -/
def Instr.withFieldsOf (op : Word) : Instr → Instr
  | .cls => .cls
  | .ret => .ret
  | .jp _ => .jp (fieldNNN op)
  | .call _ => .call (fieldNNN op)
  | .seImm _ _ => .seImm (fieldX op) (fieldNN op)
  | .sneImm _ _ => .sneImm (fieldX op) (fieldNN op)
  | .seReg _ _ => .seReg (fieldX op) (fieldY op)
  | .ldImm _ _ => .ldImm (fieldX op) (fieldNN op)
  | .addImm _ _ => .addImm (fieldX op) (fieldNN op)
  | .ldReg _ _ => .ldReg (fieldX op) (fieldY op)
  | .orReg _ _ => .orReg (fieldX op) (fieldY op)
  | .andReg _ _ => .andReg (fieldX op) (fieldY op)
  | .xorReg _ _ => .xorReg (fieldX op) (fieldY op)
  | .addReg _ _ => .addReg (fieldX op) (fieldY op)
  | .subReg _ _ => .subReg (fieldX op) (fieldY op)
  | .shrReg _ _ => .shrReg (fieldX op) (fieldY op)
  | .subnReg _ _ => .subnReg (fieldX op) (fieldY op)
  | .sneReg _ _ => .sneReg (fieldX op) (fieldY op)
  | .ldI _ => .ldI (fieldNNN op)
  | .jpV0 _ => .jpV0 (fieldNNN op)
  | .rnd _ _ => .rnd (fieldX op) (fieldNN op)
  | .drw _ _ _ => .drw (fieldX op) (fieldY op) (fieldN op)
  | .rsve _ => .rsve (fieldNNN op)
  | .rsvf _ => .rsvf (fieldNNN op)

/-! A word has the class of its row's `match`, and its low nibble where the mask keeps that. -/

theorem opClass_of_mask {op p : Word} (h : op &&& 0xF000#16 = p) : opClass op = opClass p := by
  rw [← h, opClass_and_class]

theorem opClass_of_mask_nibble {op p : Word} (h : op &&& 0xF00F#16 = p) :
    opClass op = opClass p := by
  rw [← h, opClass_and_class_nibble]

theorem fieldN_of_mask_nibble {op p : Word} (h : op &&& 0xF00F#16 = p) :
    fieldN op = fieldN p := by
  rw [← h, fieldN_and_class_nibble]

/-- A word on the row of `i` decodes to the row's instruction with the word's own fields. -/
theorem decode_of_row (i : Instr) {op : Word}
    (h : op &&& (opcodeRowOf i).mask = (opcodeRowOf i).pattern) :
    decode op = .ok (i.withFieldsOf op) := by
  cases i with
  | cls | ret =>
    obtain rfl : op = _ := BitVec.and_allOnes.symm.trans h
    rfl
  | seReg | sneReg | ldReg | orReg | andReg | xorReg | addReg | subReg | shrReg | subnReg =>
    have hc := opClass_of_mask_nibble h
    have hn := fieldN_of_mask_nibble h
    simp only [decode, decodeClass8, hc, hn, opcodeRowOf]
    rfl
  | _ =>
    rw [decode, opClass_of_mask h, opcodeRowOf]
    rfl

theorem withFieldsOf_encode {i : Instr} (h : i.wellFormed = true) :
    i.withFieldsOf (encode i) = i := by
  cases i with
  | drw x y n =>
    have hn : n < 16 := Nat.lt_succ_of_le (of_decide_eq_true h)
    simp [encode, Instr.withFieldsOf, Nat.mod_eq_of_lt hn]
  | _ => simp [encode, Instr.withFieldsOf]

/-- Settles O1: the word of an instruction is on its row, with its operands as the fields. -/
theorem decodeOfEncodeIsTheInstruction : Obligations.DecodeOfEncodeIsTheInstruction := by
  intro i hi
  rw [decode_of_row i (encode_matches_row i), withFieldsOf_encode hi]

/-! ### A decoded word is put together again (R72, R84) -/

theorem word_nnn_of_class {op : Word} {k : Nat} (hc : (opClass op).toNat = k) :
    BitVec.ofNat 4 k ++ fieldNNN op = op := by
  rw [← opClass_eq_of_toNat hc, word_of_nnn]

theorem word_xnn_of_class {op : Word} {k : Nat} (hc : (opClass op).toNat = k) :
    BitVec.ofNat 4 k ++ nibble (fieldX op) ++ fieldNN op = op := by
  rw [← opClass_eq_of_toNat hc, word_of_xnn]

theorem word_xyn_of_class {op : Word} {k n : Nat} (hc : (opClass op).toNat = k)
    (hn : fieldN op = n) :
    BitVec.ofNat 4 k ++ nibble (fieldX op) ++ nibble (fieldY op) ++ BitVec.ofNat 4 n = op := by
  rw [← opClass_eq_of_toNat hc, ← hn, word_of_xyn]

theorem encode_of_decodeClass8 {op : Word} {i : Instr} (hc : (opClass op).toNat = 8)
    (h : decodeClass8 op = .ok i) : encode i = op ∧ i.wellFormed = true := by
  unfold decodeClass8 at h
  split at h
  case h_9 => cases h
  case h_1 hn | h_2 hn | h_3 hn | h_4 hn | h_5 hn | h_6 hn | h_7 hn | h_8 hn =>
    cases h
    exact ⟨word_xyn_of_class hc hn, rfl⟩

/-- A word that decodes is the word of the instruction it decodes to, which is well-formed. -/
theorem encode_of_decode {op : Word} {i : Instr} (h : decode op = .ok i) :
    encode i = op ∧ i.wellFormed = true := by
  unfold decode at h
  split at h
  case h_1 =>
    unfold decodeClass0 at h
    split_ifs at h with hcls hret <;> cases h
    · exact ⟨hcls.symm, rfl⟩
    · exact ⟨hret.symm, rfl⟩
  case h_2 hc | h_3 hc | h_11 hc | h_12 hc | h_15 hc =>
    cases h
    exact ⟨word_nnn_of_class hc, rfl⟩
  case h_4 hc | h_5 hc | h_7 hc | h_8 hc | h_13 hc =>
    cases h
    exact ⟨word_xnn_of_class hc, rfl⟩
  case h_6 hc | h_10 hc =>
    split_ifs at h with hn
    cases h
    exact ⟨word_xyn_of_class hc hn, rfl⟩
  case h_9 hc => exact encode_of_decodeClass8 hc h
  case h_14 hc =>
    cases h
    exact ⟨word_xyn_of_class hc rfl, decide_eq_true (Nat.le_of_lt_succ (fieldN_lt op))⟩
  case h_16 =>
    have hlt := (opClass op).isLt
    have hc : (opClass op).toNat = 15 := by grind
    cases h
    exact ⟨word_nnn_of_class hc, rfl⟩

/-- Settles O2, by the cases of the decoder. -/
theorem encodeOfDecodeIsTheWord : Obligations.EncodeOfDecodeIsTheWord :=
  fun _ _ h => encode_of_decode h

/-! ### Words on no row (R76, R192) -/

/-- A word that decodes matches the row of the instruction it decodes to. -/
theorem row_of_decode {op : Word} {i : Instr} (h : decode op = .ok i) :
    op &&& (opcodeRowOf i).mask = (opcodeRowOf i).pattern := by
  obtain ⟨hop, -⟩ := encode_of_decode h
  rw [← hop]
  exact encode_matches_row i

theorem decode_of_no_row {op : Word} (h : ∀ r ∈ opcodeRows, op &&& r.mask ≠ r.pattern) :
    ∃ e, decode op = .error e := by
  cases hd : decode op with
  | error e => exact ⟨e, rfl⟩
  | ok i => exact absurd (row_of_decode hd) (h _ (opcodeRowOf_mem i))

/-- Rows that share a word agree where both masks are set. -/
theorem patterns_agree_of_common_word {r q : OpcodeRow} {op : Word}
    (hr : op &&& r.mask = r.pattern) (hq : op &&& q.mask = q.pattern) :
    r.pattern &&& q.mask = q.pattern &&& r.mask := by
  rw [← hr, ← hq, BitVec.and_assoc, BitVec.and_comm r.mask, BitVec.and_assoc]

/-- Settles O3. The operands of the instructions that name the rows are placeholders, which
`decode_of_row` replaces by the word's fields. -/
theorem opcodeMapRowsSelectTheirInstructions :
    Obligations.OpcodeMapRowsSelectTheirInstructions := by
  refine ⟨fun op => ⟨decode_of_row .cls, decode_of_row .ret, decode_of_row (.jp 0),
      decode_of_row (.call 0), decode_of_row (.seImm 0 0), decode_of_row (.sneImm 0 0),
      decode_of_row (.seReg 0 0), decode_of_row (.ldImm 0 0), decode_of_row (.addImm 0 0),
      decode_of_row (.ldReg 0 0), decode_of_row (.orReg 0 0), decode_of_row (.andReg 0 0),
      decode_of_row (.xorReg 0 0), decode_of_row (.addReg 0 0), decode_of_row (.subReg 0 0),
      decode_of_row (.shrReg 0 0), decode_of_row (.subnReg 0 0), decode_of_row (.sneReg 0 0),
      decode_of_row (.ldI 0), decode_of_row (.jpV0 0), decode_of_row (.rnd 0 0),
      decode_of_row (.drw 0 0 0), decode_of_row (.rsve 0), decode_of_row (.rsvf 0)⟩,
    opcodeRows_disjoint.imp fun hne op ⟨hr, hq⟩ => hne (patterns_agree_of_common_word hr hq),
    fun op h => ⟨decode_of_no_row h, fun s hs hf => ?_⟩⟩
  obtain ⟨e, he⟩ := decode_of_no_row h
  rw [Machine.step_of_fetch_some hs hf, Machine.runWord_of_error he]
  rfl

/-! ### Which words of a class decode (R75, R80 to R82) -/

theorem decode_class0 {op : Word} (h : opClass op = 0x0#4) : decode op = decodeClass0 op := by
  rw [decode, h]
  rfl

theorem decode_class5 {op : Word} (h : opClass op = 0x5#4) : decode op =
    if fieldN op = 0 then .ok (.seReg (fieldX op) (fieldY op)) else .error .class5Nibble := by
  rw [decode, h]
  rfl

theorem decode_class8 {op : Word} (h : opClass op = 0x8#4) : decode op = decodeClass8 op := by
  rw [decode, h]
  rfl

theorem decode_class9 {op : Word} (h : opClass op = 0x9#4) : decode op =
    if fieldN op = 0 then .ok (.sneReg (fieldX op) (fieldY op)) else .error .class9Nibble := by
  rw [decode, h]
  rfl

/-- A guarded decoder accepts a word exactly when its guard holds. -/
theorem exists_ok_ite_iff {c : Prop} [Decidable c] {i : Instr} {e : DecodeError} :
    (∃ j, (if c then .ok i else .error e : Except DecodeError Instr) = .ok j) ↔ c := by
  split_ifs with h <;> simp [h]

theorem exists_decodeClass0_iff {op : Word} :
    (∃ i, decodeClass0 op = .ok i) ↔ op = 0x00E0#16 ∨ op = 0x00EE#16 := by
  unfold decodeClass0
  split_ifs with hcls hret <;> simp [*]

theorem exists_decodeClass8_iff {op : Word} : (∃ i, decodeClass8 op = .ok i) ↔ fieldN op ≤ 7 := by
  unfold decodeClass8
  split
  case h_9 =>
    have hn : ¬ fieldN op ≤ 7 := by grind
    exact iff_of_false (fun ⟨_, h⟩ => nomatch h) hn
  all_goals exact iff_of_true ⟨_, rfl⟩ (by omega)

/-- Only the classes 0, 5, 8 and 9 hold words that are no instruction. -/
theorem exists_decode_of_full_class {op : Word} (h0 : opClass op ≠ 0x0#4)
    (h5 : opClass op ≠ 0x5#4) (h8 : opClass op ≠ 0x8#4) (h9 : opClass op ≠ 0x9#4) :
    ∃ i, decode op = .ok i := by
  unfold decode
  split
  case h_1 h => exact absurd (opClass_eq_of_toNat h) h0
  case h_6 h => exact absurd (opClass_eq_of_toNat h) h5
  case h_9 h => exact absurd (opClass_eq_of_toNat h) h8
  case h_10 h => exact absurd (opClass_eq_of_toNat h) h9
  all_goals exact ⟨_, rfl⟩

theorem fieldN_eq_zero_iff {op : Word} : fieldN op = 0 ↔ op.extractLsb' 0 4 = 0x0#4 :=
  BitVec.toNat_inj (y := 0x0#4)

/-- Settles O4, class by class. -/
theorem invalidWordsOfEachClass : Obligations.InvalidWordsOfEachClass := by
  intro op
  refine ⟨fun h => ?_, ?_, fun h => ?_, exists_decode_of_full_class⟩
  · rw [decode_class0 h, exists_decodeClass0_iff]
  · rintro (h | h)
    · rw [decode_class5 h, exists_ok_ite_iff, fieldN_eq_zero_iff]
    · rw [decode_class9 h, exists_ok_ite_iff, fieldN_eq_zero_iff]
  · rw [decode_class8 h, exists_decodeClass8_iff, fieldN]

/-- Settles O5: twelve fixed words, decoded by evaluation. -/
theorem sampleWordsDecode : Obligations.SampleWordsDecode := by
  unfold Obligations.SampleWordsDecode
  decide

end Sys2Proof

/-! PROOFS for 40_cycle.md. The layer below says once with which cause and state a step faults
(`StepFault`), that a step of a running core faults so or completes (`step_ends`), and that the draw
of the host's step reaches `CXNN` alone (`exec_supplyDraw`); the statements about the cycle and its
faults are read off these. -/

namespace Sys2Proof.Machine

section

variable {s t : State} {i : Instr} {c : FaultCause} {op : Word} {r : Byte}

/-! ### Fetch, decode, execute (R100 to R104) -/

/-- The fetched word is the two bytes at `pc`, and there is one up to address 4094 (R52, R101). -/
theorem fetch_eq_some_iff : fetch s = some op ↔
    s.pc.toNat ≤ 4094 ∧ op = s.ram.byteAt s.pc.toNat ++ s.ram.byteAt (s.pc.toNat + 1) := by
  by_cases hpc : s.pc.toNat ≤ 4094
  · rw [fetch_eq_some hpc, Option.some.injEq, eq_comm, wordOfBytes]
    exact (and_iff_right hpc).symm
  · rw [fetch_eq_none.2 (by omega)]
    exact iff_of_false nofun fun h => hpc h.1

/-- A condition on the fetched word is one on the two bytes at `pc`, up to address 4094. -/
theorem exists_fetched_iff (hop : op = s.ram.byteAt s.pc.toNat ++ s.ram.byteAt (s.pc.toNat + 1))
    {p : Word → Prop} : (∃ w, fetch s = some w ∧ p w) ↔ s.pc.toNat ≤ 4094 ∧ p op := by
  simp only [fetch_eq_some_iff, ← hop, and_assoc, exists_and_left, exists_eq_left]

theorem step_of_decode (hs : s.halted = false) (hf : fetch s = some op) (hd : decode op = .ok i) :
    step s = exec i (advancePc s) :=
  (step_of_fetch_some hs hf).trans (runWord_of_ok hd)

/-! ### Raised causes (R201) -/

/-- What `DXYN` accesses, the stack and the parameters decide what an instruction raises. -/
theorem raisedCause_congr {s' : State} (hv : s'.v = s.v) (hi : s'.i = s.i)
    (hstack : s'.stack = s.stack) (hram : s'.ram = s.ram) (hconfig : s'.config = s.config) :
    raisedCause i s' c ↔ raisedCause i s c := by
  have hscan (x y : RegIdx) (n : Nat) : scanSprite s' x y n = scanSprite s x y n :=
    scanSprite_congr hi hram (by rw [hv]) (by rw [hv]) n
  cases c <;> simp only [raisedCause, State.sp, hscan, hstack, hconfig]

theorem raisedCause_advancePc : raisedCause i (advancePc s) c ↔ raisedCause i s c :=
  raisedCause_congr (s := s) (s' := advancePc s) rfl rfl rfl rfl rfl

theorem raisedCause_supplyDraw {q : Option Byte} :
    raisedCause i (s.supplyDraw q) c ↔ raisedCause i s c :=
  raisedCause_congr (s := s) (s' := s.supplyDraw q) rfl rfl rfl rfl rfl

/-- An instruction that raises a cause does nothing but enter the fault (R107, R204). -/
theorem exec_of_raisedCause (h : raisedCause i s c) :
    exec i s = .next (enterFault c (s.pc - 2) (encode i) s) := by
  cases c with
  | unimplementedOpcode =>
    obtain ⟨x, y, rfl⟩ | ⟨hp, b, rfl | rfl⟩ := h
    · exact exec_shrReg s x y
    · exact reservedWord_fault s _ hp
    · exact reservedWord_fault s _ hp
  | stackUnderflow =>
    obtain ⟨rfl, hsp⟩ := h
    exact exec_ret_of_empty s (List.length_eq_zero_iff.1 hsp)
  | stackOverflow =>
    obtain ⟨⟨nnn, rfl⟩, hsp⟩ := h
    exact exec_call_of_full s nnn hsp
  | spriteReadOutOfRange | framebufferOutOfRange =>
    obtain ⟨x, y, n, rfl, hscan⟩ := h
    exact exec_drw_of_error s hscan
  | ok | invalidOpcode | fetchOutOfRange => exact h.elim

/-- In a cycle the fault records the fetched word and the fetch address (R202). -/
theorem exec_advancePc_of_raisedCause (hd : decode op = .ok i) (h : raisedCause i s c) :
    exec i (advancePc s) = .next (enterFault c s.pc op (advancePc s)) := by
  obtain ⟨hop, -⟩ := encode_of_decode hd
  rw [exec_of_raisedCause (raisedCause_advancePc.2 h), advancePc_pc_sub_two, hop]

/-! ### How a step of a running core ends (R105, R108) -/

/-- A step of the running core `s` raises the cause and leaves the state `t`: the checks of R108. -/
inductive StepFault (s : State) : FaultCause → State → Prop
  | noFetch : fetch s = none →
      StepFault s .fetchOutOfRange (enterFault .fetchOutOfRange s.pc 0x0000#16 s)
  | noDecode (op : Word) (e : DecodeError) : fetch s = some op → decode op = .error e →
      StepFault s .invalidOpcode (enterFault .invalidOpcode s.pc op (advancePc s))
  | raised (op : Word) (i : Instr) (c : FaultCause) : fetch s = some op → decode op = .ok i →
      raisedCause i s c → StepFault s c (enterFault c s.pc op (advancePc s))

namespace StepFault

theorem halted (h : StepFault s c t) : t.halted = true := by cases h <;> rfl

theorem faultCause_eq (h : StepFault s c t) : t.faultCause = c := by cases h <;> rfl

theorem suppliedDraw_eq (h : StepFault s c t) : t.suppliedDraw = s.suppliedDraw := by
  cases h <;> rfl

theorem ne_ok (h : StepFault s c t) : c ≠ .ok := by
  cases h with
  | noFetch | noDecode => decide
  | raised op i c _ _ hc => exact raisedCause_ne_ok hc

/-- The draw of the step plays no part in a fault (R161). -/
theorem supplyDraw (h : StepFault s c t) (q : Option Byte) :
    StepFault (s.supplyDraw q) c (t.supplyDraw q) := by
  cases h with
  | noFetch hf => exact .noFetch hf
  | noDecode op e hf he => exact .noDecode op e hf he
  | raised op i c hf hd hc => exact .raised op i c hf hd (raisedCause_supplyDraw.2 hc)

end StepFault

theorem step_of_stepFault (hs : s.halted = false) (h : StepFault s c t) : step s = .next t := by
  cases h with
  | noFetch hf => exact step_of_fetch_none hs hf
  | noDecode op e hf he => exact (step_of_fetch_some hs hf).trans (runWord_of_error he)
  | raised op i c hf hd hc =>
    exact (step_of_decode hs hf hd).trans (exec_advancePc_of_raisedCause hd hc)

/-- A step of a running core faults, or it completes and the core runs on. -/
theorem step_ends (hs : s.halted = false) :
    (∃ c t, StepFault s c t) ∨ ∃ t, step s = .next t ∧ t.halted = false := by
  rcases step_cases hs with ⟨hf, -⟩ | ⟨op, e, hf, he, -⟩ | ⟨op, i, hf, hd, hstep⟩
  · exact .inl ⟨_, _, .noFetch hf⟩
  · exact .inl ⟨_, _, .noDecode op e hf he⟩
  · rcases exec_cases i (advancePc s) with ⟨t, ht, hhalted, -⟩ | ⟨c, hc, -⟩
    · exact .inr ⟨t, hstep.trans ht, hhalted.trans hs⟩
    · exact .inl ⟨c, _, .raised op i c hf hd (raisedCause_advancePc.1 hc)⟩

theorem exec_answers (i : Instr) (s : State) : ∃ t, exec i s = .next t := by
  rcases exec_cases i s with ⟨t, ht, -⟩ | ⟨c, -, ht⟩
  · exact ⟨t, ht⟩
  · exact ⟨_, ht⟩

theorem step_answers (hs : s.halted = false) : ∃ t, step s = .next t := by
  rcases step_ends hs with ⟨c, t, hfault⟩ | ⟨t, ht, -⟩
  · exact ⟨t, step_of_stepFault hs hfault⟩
  · exact ⟨t, ht⟩

/-! ### The host's step on a draw (R227) -/

theorem hostStep_of_halted (hs : s.halted = true) (r : Byte) :
    performHostOp (.step r) s = some (s, .stepped s.faultCause) :=
  performHostOp_step.2 ⟨_, stepOp_of_halted r hs, rfl⟩

theorem hostStep_of_next (h : step (s.supplyDraw (some r)) = .next t) :
    performHostOp (.step r) s =
      some (t.supplyDraw s.suppliedDraw, .stepped (if t.halted then t.faultCause else .ok)) :=
  performHostOp_step.2 ⟨_, stepOp_of_next h, rfl⟩

theorem hostStep_of_completed (h : step (s.supplyDraw (some r)) = .next t)
    (ht : t.halted = false) :
    performHostOp (.step r) s = some (t.supplyDraw s.suppliedDraw, .stepped .ok) := by
  rw [hostStep_of_next h, ht]
  rfl

theorem hostStep_of_stepFault (hs : s.halted = false) (h : StepFault s c t) (r : Byte) :
    performHostOp (.step r) s = some (t, .stepped c) := by
  have hfault := h.supplyDraw (some r)
  rw [hostStep_of_next (step_of_stepFault hs hfault), if_pos hfault.halted, hfault.faultCause_eq,
    supplyDraw_supplyDraw, ← h.suppliedDraw_eq, supplyDraw_suppliedDraw_self]

/-! ### The draw reaches `CXNN` alone (R161) -/

theorem reservedWord_supplyDraw (h : reservedWord i s = .next t) (q : Option Byte) :
    reservedWord i (s.supplyDraw q) = .next (t.supplyDraw q) := by
  cases hp : s.config.efPolicy with
  | noop =>
    cases (reservedWord_noop s i hp).symm.trans h
    exact reservedWord_noop _ i hp
  | fault =>
    cases (reservedWord_fault s i hp).symm.trans h
    exact reservedWord_fault _ i hp

/-- Any instruction but `CXNN` does the same whatever draw is supplied, and keeps the draw. -/
theorem exec_supplyDraw (hi : ∀ x nn, i ≠ .rnd x nn) (h : exec i s = .next t) (q : Option Byte) :
    exec i (s.supplyDraw q) = .next (t.supplyDraw q) := by
  cases i with
  | rnd x nn => exact absurd rfl (hi x nn)
  | ret =>
    rcases stack_cases s with hs | ⟨w, l, hs⟩
    · cases (exec_ret_of_empty s hs).symm.trans h
      exact exec_ret_of_empty _ hs
    · cases (exec_ret_of_cons s hs).symm.trans h
      exact exec_ret_of_cons _ hs
  | call nnn =>
    by_cases hd : s.sp = s.config.stackDepth
    · cases (exec_call_of_full s nnn hd).symm.trans h
      exact exec_call_of_full _ nnn hd
    · cases (exec_call_of_room s nnn hd).symm.trans h
      exact exec_call_of_room _ nnn hd
  | drw x y n =>
    have hscan : scanSprite (s.supplyDraw q) x y n = scanSprite s x y n :=
      scanSprite_congr (s := s) (s' := s.supplyDraw q) rfl rfl rfl rfl n
    cases hs : scanSprite s x y n with
    | ok cs =>
      cases (exec_drw_of_ok s hs).symm.trans h
      exact exec_drw_of_ok _ (hscan.trans hs)
    | error e =>
      cases (exec_drw_of_error s hs).symm.trans h
      exact exec_drw_of_error _ (hscan.trans hs)
  | seImm x nn =>
    cases (exec_seImm s x nn).symm.trans h
    exact exec_seImm _ x nn
  | sneImm x nn =>
    cases (exec_sneImm s x nn).symm.trans h
    exact exec_sneImm _ x nn
  | seReg x y =>
    cases (exec_seReg s x y).symm.trans h
    exact exec_seReg _ x y
  | sneReg x y =>
    cases (exec_sneReg s x y).symm.trans h
    exact exec_sneReg _ x y
  | rsve b | rsvf b => exact reservedWord_supplyDraw h q
  | _ =>
    cases h
    rfl

/-- The supplied draw is left where it stood. -/
theorem supplyDraw_of_exec (hi : ∀ x nn, i ≠ .rnd x nn) (h : exec i s = .next t) :
    t.supplyDraw s.suppliedDraw = t := by
  have hsame := exec_supplyDraw hi h s.suppliedDraw
  rw [supplyDraw_suppliedDraw_self, h] at hsame
  exact (Host.Outcome.next.inj hsame).symm

/-- A completed instruction other than `CXNN`, as the host gets it: the draw is not in it. -/
theorem hostStep_of_exec (hs : s.halted = false) (hf : fetch s = some op) (hd : decode op = .ok i)
    (hi : ∀ x nn, i ≠ .rnd x nn) (h : exec i (advancePc s) = .next t) (ht : t.halted = false)
    (r : Byte) : performHostOp (.step r) s = some (t, .stepped .ok) := by
  have hstep : step (s.supplyDraw (some r)) = .next (t.supplyDraw (some r)) :=
    (step_of_decode (s := s.supplyDraw (some r)) hs hf hd).trans (exec_supplyDraw hi h (some r))
  rw [hostStep_of_completed hstep ht, supplyDraw_supplyDraw]
  exact congrArg (fun u => some (u, _)) (supplyDraw_of_exec (s := advancePc s) hi h)

/-- `CXNN` takes the draw of the step under its mask (R162). -/
theorem hostStep_of_rnd {x : RegIdx} {nn : Byte} (hs : s.halted = false) (hf : fetch s = some op)
    (hd : decode op = .ok (.rnd x nn)) (r : Byte) :
    performHostOp (.step r) s = some ((advancePc s).setV x (r &&& nn), .stepped .ok) :=
  have hstep := (step_of_decode (s := s.supplyDraw (some r)) hs hf hd).trans (exec_rnd _ x nn)
  hostStep_of_completed hstep hs

/-! ### `step` as the host's step on the draw in `State` (R161) -/

/-- The two states differ in nothing but the fields that hold the draws. -/
def SameButDraws (t u : State) : Prop :=
  t = { u with suppliedDraw := t.suppliedDraw, draws := t.draws }

theorem exec_on_nextDraw (h : exec i s = .next t) :
    ∃ u, exec i (s.supplyDraw (some (nextDraw s))) = .next u ∧ SameButDraws t u := by
  by_cases hi : ∃ x nn, i = .rnd x nn
  · obtain ⟨x, nn, rfl⟩ := hi
    cases (exec_rnd s x nn).symm.trans h
    exact ⟨_, exec_rnd _ x nn, rfl⟩
  · exact ⟨_, exec_supplyDraw (fun x nn hrnd => hi ⟨x, nn, hrnd⟩) h _, rfl⟩

theorem step_on_nextDraw (h : step s = .next t) :
    ∃ u, step (s.supplyDraw (some (nextDraw s))) = .next u ∧ SameButDraws t u := by
  obtain ⟨hs, -⟩ := step_next h
  rcases step_cases hs with ⟨hf, he⟩ | ⟨op, e, hf, he, hstep⟩ | ⟨op, i, hf, hd, hstep⟩
  · cases he.symm.trans h
    exact ⟨_, step_of_stepFault hs ((StepFault.noFetch hf).supplyDraw _), rfl⟩
  · cases hstep.symm.trans h
    exact ⟨_, step_of_stepFault hs ((StepFault.noDecode op e hf he).supplyDraw _), rfl⟩
  · obtain ⟨u, hu, hsame⟩ := exec_on_nextDraw (hstep.symm.trans h)
    exact ⟨u, (step_of_decode (s := s.supplyDraw (some (nextDraw s))) hs hf hd).trans hu, hsame⟩

/-! ### The condition of each cause (R108, R178, R201) -/

/-- The first row that does not fit decides what the scan of a sprite answers (R178). -/
theorem scanSprite_of_first_misfit {x y : RegIdx} {n row : Nat} (hrow : row < n)
    (hfit : ∀ k < row, spriteRowFits s x y k) (hmisfit : ¬ spriteRowFits s x y row) :
    scanSprite s x y n =
      .error (if 4095 < s.i.toNat + row then .spriteReadOutOfRange else .framebufferOutOfRange) := by
  cases hscan : scanSprite s x y n with
  | ok cs =>
    obtain ⟨hall, -⟩ := scanSprite_ok hscan
    exact absurd (hall row hrow) hmisfit
  | error e =>
    obtain ⟨first, -, hbefore, hcause⟩ := scanSprite_error hscan
    have hfirst : ¬ spriteRowFits s x y first := by
      rintro ⟨hread, hcells⟩
      obtain ⟨-, hout⟩ | ⟨-, -, j, hj, hbit, hout⟩ := hcause
      · omega
      · exact hout (hcells j hj hbit)
    obtain rfl : first = row :=
      le_antisymm (not_lt.1 fun hlt => hmisfit (hbefore row hlt))
        (not_lt.1 fun hlt => hfirst (hfit first hlt))
    obtain ⟨rfl, hout⟩ | ⟨rfl, hin, -⟩ := hcause
    · rw [if_pos hout]
    · rw [if_neg (by omega)]

theorem scanSprite_error_read_iff {x y : RegIdx} {n : Nat} :
    scanSprite s x y n = .error .spriteReadOutOfRange ↔
      ∃ row < n, (∀ k < row, spriteRowFits s x y k) ∧ 4095 < s.i.toNat + row := by
  constructor
  · intro h
    obtain ⟨row, hrow, hfit, ⟨-, hout⟩ | ⟨hne, -⟩⟩ := scanSprite_error h
    · exact ⟨row, hrow, hfit, hout⟩
    · cases hne
  · rintro ⟨row, hrow, hfit, hout⟩
    rw [scanSprite_of_first_misfit hrow hfit fun h => absurd h.1 (by omega), if_pos hout]

theorem scanSprite_error_framebuffer_iff {x y : RegIdx} {n : Nat} :
    scanSprite s x y n = .error .framebufferOutOfRange ↔
      ∃ row < n, (∀ k < row, spriteRowFits s x y k) ∧ s.i.toNat + row ≤ 4095 ∧
        ∃ j < 8, spriteBit s row j ∧
          (63 < s.v[x].toNat % 64 + j ∨ 31 < s.v[y].toNat % 64 % 32 + row) := by
  constructor
  · intro h
    obtain ⟨row, hrow, hfit, ⟨hne, -⟩ | ⟨-, hin, j, hj, hbit, hout⟩⟩ := scanSprite_error h
    · cases hne
    · exact ⟨row, hrow, hfit, hin, j, hj, hbit, by omega⟩
  · rintro ⟨row, hrow, hfit, hin, j, hj, hbit, hout⟩
    rw [scanSprite_of_first_misfit hrow hfit fun h => absurd (h.2 j hj hbit) (by omega),
      if_neg (by omega)]

theorem stepFault_fetchOutOfRange_iff :
    (∃ t, StepFault s .fetchOutOfRange t) ↔ 4095 ≤ s.pc.toNat := by
  rw [← fetch_eq_none]
  constructor
  · rintro ⟨t, hf | _ | ⟨_, _, _, _, _, hc⟩⟩
    · exact hf
    · exact hc.elim
  · exact fun hf => ⟨_, .noFetch hf⟩

theorem stepFault_invalidOpcode_iff :
    (∃ t, StepFault s .invalidOpcode t) ↔ ∃ w, fetch s = some w ∧ ∃ e, decode w = .error e := by
  constructor
  · rintro ⟨t, _ | ⟨w, e, hf, he⟩ | ⟨_, _, _, _, _, hc⟩⟩
    · exact ⟨w, hf, e, he⟩
    · exact hc.elim
  · rintro ⟨w, hf, e, he⟩
    exact ⟨_, .noDecode w e hf he⟩

/-- Every other cause is one that the decoded instruction raises. -/
theorem stepFault_iff_raisedCause (hfetch : c ≠ .fetchOutOfRange) (hinvalid : c ≠ .invalidOpcode) :
    (∃ t, StepFault s c t) ↔
      ∃ w, fetch s = some w ∧ ∃ i, decode w = .ok i ∧ raisedCause i s c := by
  constructor
  · rintro ⟨t, _ | _ | ⟨w, i, c, hf, hd, hc⟩⟩
    · exact absurd rfl hfetch
    · exact absurd rfl hinvalid
    · exact ⟨w, hf, i, hd, hc⟩
  · rintro ⟨w, hf, i, hd, hc⟩
    exact ⟨_, .raised w i c hf hd hc⟩

/-- What the host gets from a step of a running core: a fault with its cause, or `ok`. -/
theorem hostStep_ends (hs : s.halted = false) (h : performHostOp (.step r) s = some (t, .stepped c)) :
    StepFault s c t ∨ c = .ok ∧ t.halted = false := by
  rcases step_ends (s := s.supplyDraw (some r)) hs with ⟨d, u, hfault⟩ | ⟨u, hu, hrunning⟩
  · have hfault := hfault.supplyDraw s.suppliedDraw
    rw [supplyDraw_supplyDraw, supplyDraw_suppliedDraw_self] at hfault
    cases (hostStep_of_stepFault hs hfault r).symm.trans h
    exact .inl hfault
  · cases (hostStep_of_completed hu hrunning).symm.trans h
    exact .inr ⟨rfl, hrunning⟩

/-- The result of a step is `ok` exactly when the core is not halted by it (R110). -/
theorem hostStep_ok_iff (hs : s.halted = false)
    (h : performHostOp (.step r) s = some (t, .stepped c)) : c = .ok ↔ t.halted = false := by
  obtain hfault | ⟨hok, hrunning⟩ := hostStep_ends hs h
  · exact iff_of_false hfault.ne_ok (by simp [hfault.halted])
  · exact iff_of_true hok hrunning

/-- The result of a step is a cause other than `ok` exactly when the step faults with it. -/
theorem hostStep_cause_iff (hs : s.halted = false)
    (h : performHostOp (.step r) s = some (t, .stepped c)) {d : FaultCause} (hd : d ≠ .ok) :
    c = d ↔ ∃ u, StepFault s d u := by
  constructor
  · rintro rfl
    exact ⟨t, (hostStep_ends hs h).resolve_right fun hok => hd hok.1⟩
  · rintro ⟨u, hfault⟩
    cases (hostStep_of_stepFault hs hfault r).symm.trans h
    rfl

/-- The result is a cause that instructions raise exactly when the decoded instruction raises it. -/
theorem hostStep_raised_iff (hs : s.halted = false)
    (h : performHostOp (.step r) s = some (t, .stepped c))
    (hop : op = s.ram.byteAt s.pc.toNat ++ s.ram.byteAt (s.pc.toNat + 1))
    {d : FaultCause} (hok : d ≠ .ok) (hfetch : d ≠ .fetchOutOfRange) (hinvalid : d ≠ .invalidOpcode) :
    c = d ↔ s.pc.toNat ≤ 4094 ∧ ∃ i, decode op = .ok i ∧ raisedCause i s d := by
  rw [hostStep_cause_iff hs h hok, stepFault_iff_raisedCause hfetch hinvalid,
    exists_fetched_iff hop]

/-! The conditions under which the decoded instruction raises each of its causes. -/

theorem raises_unimplementedOpcode_iff :
    (∃ i, decode op = .ok i ∧ raisedCause i s .unimplementedOpcode) ↔
      (∃ x y, decode op = .ok (.shrReg x y)) ∨
        s.config.efPolicy = .fault ∧
          ∃ bits, decode op = .ok (.rsve bits) ∨ decode op = .ok (.rsvf bits) := by
  constructor
  · rintro ⟨i, hd, ⟨x, y, rfl⟩ | ⟨hp, bits, rfl | rfl⟩⟩
    · exact .inl ⟨x, y, hd⟩
    · exact .inr ⟨hp, bits, .inl hd⟩
    · exact .inr ⟨hp, bits, .inr hd⟩
  · rintro (⟨x, y, hd⟩ | ⟨hp, bits, hd | hd⟩)
    · exact ⟨_, hd, .inl ⟨x, y, rfl⟩⟩
    · exact ⟨_, hd, .inr ⟨hp, bits, .inl rfl⟩⟩
    · exact ⟨_, hd, .inr ⟨hp, bits, .inr rfl⟩⟩

theorem raises_stackUnderflow_iff :
    (∃ i, decode op = .ok i ∧ raisedCause i s .stackUnderflow) ↔
      decode op = .ok .ret ∧ s.sp = 0 := by
  constructor
  · rintro ⟨i, hd, rfl, hsp⟩
    exact ⟨hd, hsp⟩
  · rintro ⟨hd, hsp⟩
    exact ⟨_, hd, rfl, hsp⟩

theorem raises_stackOverflow_iff :
    (∃ i, decode op = .ok i ∧ raisedCause i s .stackOverflow) ↔
      (∃ nnn, decode op = .ok (.call nnn)) ∧ s.sp = s.config.stackDepth := by
  constructor
  · rintro ⟨i, hd, ⟨nnn, rfl⟩, hsp⟩
    exact ⟨⟨nnn, hd⟩, hsp⟩
  · rintro ⟨⟨nnn, hd⟩, hsp⟩
    exact ⟨_, hd, ⟨nnn, rfl⟩, hsp⟩

/-- A condition on the operands of `DXYN`, of the decoded instruction and of the word. -/
theorem decodes_drw_iff {p : RegIdx → RegIdx → Nat → Prop} :
    (∃ i, decode op = .ok i ∧ ∃ x y n, i = .drw x y n ∧ p x y n) ↔
      ∃ x y n, decode op = .ok (.drw x y n) ∧ p x y n := by
  constructor
  · rintro ⟨i, hd, x, y, n, rfl, hp⟩
    exact ⟨x, y, n, hd, hp⟩
  · rintro ⟨x, y, n, hd, hp⟩
    exact ⟨_, hd, x, y, n, rfl, hp⟩

end

/-! ### The statements -/

/-- Settles O10: the two bytes at `pc` are the word that is fetched. -/
theorem stepRunsTheDecodedInstruction : Obligations.StepRunsTheDecodedInstruction :=
  fun _ _ hs hpc hd => step_of_decode hs (fetch_eq_some hpc) hd

/-- Settles O13, by the ways an instruction and a step end. -/
theorem everyStepAnswers : Obligations.EveryStepAnswers := by
  refine ⟨exec_answers, fun s => step_answers, fun s r => ?_⟩
  cases hs : s.halted with
  | true => exact ⟨_, _, hostStep_of_halted hs r⟩
  | false =>
    obtain ⟨t, ht⟩ := step_answers (s := s.supplyDraw (some r)) hs
    exact ⟨_, _, hostStep_of_next ht⟩

/-- Settles O12: a halted core has no step, and no other operation but reset writes these fields. -/
theorem haltedCoreIsStuckUntilReset : Obligations.HaltedCoreIsStuckUntilReset := by
  intro s hs
  refine ⟨step_of_halted hs, hostStep_of_halted hs, ⟨_, rfl, rfl⟩, fun op t r hreset h => ?_⟩
  cases performHostOp_effect h with
  | reset hop => exact absurd hop hreset
  | step d u _ hu => cases (step_of_halted (s := s.supplyDraw (some d)) hs).symm.trans hu
  | _ => exact ⟨hs, rfl, rfl, rfl, rfl, rfl, rfl, rfl⟩

/-- Settles O42, by the three checks at which a step faults. -/
theorem faultsArePreciseAndRecorded : Obligations.FaultsArePreciseAndRecorded := by
  intro s t hs h ht
  obtain ⟨c, u, hfault⟩ | ⟨u, hu, hrunning⟩ := step_ends hs
  · cases (step_of_stepFault hs hfault).symm.trans h
    cases hfault with
    | noFetch hf => exact ⟨fun _ => rfl, fun hpc => absurd (fetch_eq_none.1 hf) (by omega)⟩
    | noDecode op e hf he =>
      obtain ⟨hpc, rfl⟩ := fetch_eq_some_iff.1 hf
      exact ⟨fun hge => absurd hpc (by omega), fun _ => ⟨nofun, nofun, rfl⟩⟩
    | raised op i c hf hd hc =>
      obtain ⟨hpc, rfl⟩ := fetch_eq_some_iff.1 hf
      exact ⟨fun hge => absurd hpc (by omega),
        fun _ => ⟨raisedCause_ne_ok hc, by rintro rfl; exact hc, rfl⟩⟩
  · cases hu.symm.trans h
    exact absurd (hrunning.symm.trans ht) (by decide)

/-- Settles O11, case by case of R105. -/
theorem stepIsTheWholeCycle : Obligations.StepIsTheWholeCycle := by
  intro s r
  refine ⟨fun hs => hostStep_of_halted hs r,
    fun hs hpc => hostStep_of_stepFault hs (.noFetch (fetch_eq_none.2 hpc)) r,
    fun op hs hpc hop => ?_⟩
  have hf : fetch s = some op := fetch_eq_some_iff.2 ⟨hpc, hop⟩
  refine ⟨fun e he => hostStep_of_stepFault hs (.noDecode op e hf he) r,
    fun x y hd => hostStep_of_stepFault hs
      (.raised op _ .unimplementedOpcode hf hd (.inl ⟨x, y, rfl⟩)) r,
    ?_, fun x nn hd => ?_, fun i hd hi => ?_⟩
  · rintro bits (hd | hd) hp <;>
      exact hostStep_of_exec hs hf hd nofun (reservedWord_noop _ _ hp) hs r
  · exact ⟨_, hostStep_of_rnd hs hf hd r, readReg_setV_self _ x _,
      fun k hk => readReg_setV_of_ne _ _ hk, rfl⟩
  · rcases exec_cases i (advancePc s) with ⟨t, ht, hhalted, -⟩ | ⟨c, hc, -⟩
    · have hrunning : t.halted = false := hhalted.trans hs
      exact ⟨t, ht, .inl ⟨hrunning, hostStep_of_exec hs hf hd hi ht hrunning r⟩⟩
    · have hraised : raisedCause i s c := raisedCause_advancePc.1 hc
      exact ⟨_, exec_advancePc_of_raisedCause hd hraised,
        .inr ⟨rfl, hostStep_of_stepFault hs (.raised op i c hf hd hraised) r⟩⟩

/-- Settles O58: the host's step supplies the draw that `step` would take. -/
theorem stepIsTheHostStepOnItsDraw : Obligations.StepIsTheHostStepOnItsDraw := by
  intro s t h
  obtain ⟨u, hu, hsame⟩ := step_on_nextDraw h
  refine ⟨_, _, hostStep_of_next hu, hsame, fun r hr => ?_, fun hr => ?_⟩
  · rw [nextDraw, hr]
    rfl
  · rw [nextDraw, hr]
    rfl

/-- Settles O43: a step reports the cause with which it faults, and each check has its condition. -/
theorem eachCauseHasItsCondition : Obligations.EachCauseHasItsCondition := by
  intro s t r c op hs h hop
  have hraised {d : FaultCause} := hostStep_raised_iff hs h hop (d := d)
  refine ⟨hostStep_ok_iff hs h, ?_, ?_, ?_, ?_, ?_, ?_, ?_⟩
  · rw [hostStep_cause_iff hs h (by decide), stepFault_fetchOutOfRange_iff]
  · rw [hostStep_cause_iff hs h (by decide), stepFault_invalidOpcode_iff,
      exists_fetched_iff hop]
  · rw [hraised (by decide) (by decide) (by decide), raises_unimplementedOpcode_iff]
  · rw [hraised (by decide) (by decide) (by decide), raises_stackUnderflow_iff]
  · rw [hraised (by decide) (by decide) (by decide), raises_stackOverflow_iff]
  · rw [hraised (by decide) (by decide) (by decide)]
    simp only [raisedCause, decodes_drw_iff, scanSprite_error_read_iff]
  · rw [hraised (by decide) (by decide) (by decide)]
    simp only [raisedCause, decodes_drw_iff, scanSprite_error_framebuffer_iff]

end Sys2Proof.Machine

/-! PROOFS for 41_control_flow.md. A call and a return take one equation of `step` each; the round
trip runs the second on the state the first answers. That a word decodes is the round trip of the
encoder (`decodeOfEncodeIsTheInstruction`), what its instruction answers the equations of `exec`. -/

namespace Sys2Proof.Machine

section

variable {s : State}

/-- A step of `2NNN` with room on the stack: the advanced `pc` is pushed, `NNN` is next (R122). -/
theorem step_of_call {nnn : Addr12} (hs : s.halted = false) (hf : fetch s = some (0x2#4 ++ nnn))
    (hroom : s.sp ≠ s.config.stackDepth) :
    step s = .next ((s.setStack ((s.pc + 2) :: s.stack)).setPc (nnn.setWidth 16)) :=
  (step_of_decode hs hf (decodeOfEncodeIsTheInstruction (.call nnn) rfl)).trans
    (exec_call_of_room (advancePc s) nnn hroom)

/-- A step of `00EE` with an entry on the stack: the entry is popped into `pc` (R120). -/
theorem step_of_ret {w : Word} {l : List Word} (hs : s.halted = false)
    (hf : fetch s = some 0x00EE#16) (hstack : s.stack = w :: l) :
    step s = .next ((s.setStack l).setPc w) :=
  (step_of_decode hs hf (decodeOfEncodeIsTheInstruction .ret rfl)).trans
    (exec_ret_of_cons (advancePc s) hstack)

end

/-- Settles O18: the return at `NNN` pops the entry that the call pushed. -/
theorem callThenReturnRoundTrip : Obligations.CallThenReturnRoundTrip := by
  intro s nnn hs _ hcall hroom hpc hret
  have hf : fetch ((s.setStack ((s.pc + 2) :: s.stack)).setPc (nnn.setWidth 16)) =
      some 0x00EE#16 := by
    rw [fetch_eq_some_iff, State.setPc_pc, toNat_setWidth_addr]
    exact ⟨hpc, hret.symm⟩
  exact ⟨_, step_of_call hs hcall hroom, toNat_setWidth_addr nnn, step_of_ret hs hf rfl⟩

/-- Settles O14, by the two cases of the stack. -/
theorem retPopsThePc : Obligations.RetPopsThePc :=
  ⟨decodeOfEncodeIsTheInstruction .ret rfl, fun s _ _ => exec_ret_of_cons s, exec_ret_of_empty⟩

/-- Settles O15: 12 bits fit in `pc`. -/
theorem jpLoadsThePc : Obligations.JpLoadsThePc := fun nnn s =>
  ⟨decodeOfEncodeIsTheInstruction (.jp nnn) rfl, _, exec_jp s nnn, toNat_setWidth_addr nnn, rfl⟩

/-- Settles O16, by whether the stack has room. -/
theorem callPushesTheAdvancedPc : Obligations.CallPushesTheAdvancedPc := fun nnn s =>
  ⟨decodeOfEncodeIsTheInstruction (.call nnn) rfl,
    fun hroom => ⟨_, exec_call_of_room s nnn hroom, rfl, toNat_setWidth_addr nnn, rfl⟩,
    exec_call_of_full s nnn⟩

/-- Settles O17: the sum of a byte and 12 bits fits in `pc`. -/
theorem jpV0AddsTheOffset : Obligations.JpV0AddsTheOffset := fun nnn s =>
  ⟨decodeOfEncodeIsTheInstruction (.jpV0 nnn) rfl, _, exec_jpV0 s nnn, toNat_offset s.v[v0] nnn,
    rfl⟩

end Sys2Proof.Machine

/-! PROOFS for 42_skip.md. A skip's word decodes by the round trip of the encoder; what the skip
answers is its equation of `exec`, where the two `SNE` skips have the negated test. -/

namespace Sys2Proof.Machine

/-- Settles O19, skip by skip. -/
theorem skipsAddTwoOnTheirCondition : Obligations.SkipsAddTwoOnTheirCondition := by
  intro x y nn s
  have hsneImm := exec_sneImm s x nn
  have hsneReg := exec_sneReg s x y
  rw [ite_not] at hsneImm hsneReg
  exact ⟨decodeOfEncodeIsTheInstruction (.seImm x nn) rfl, exec_seImm s x nn,
    decodeOfEncodeIsTheInstruction (.sneImm x nn) rfl, hsneImm,
    decodeOfEncodeIsTheInstruction (.seReg x y) rfl, exec_seReg s x y,
    decodeOfEncodeIsTheInstruction (.sneReg x y) rfl, hsneReg⟩

end Sys2Proof.Machine

/-! PROOFS for 43_alu.md. An instruction's word decodes by the round trip of the encoder and its
answer is its equation of `exec`: one register written, or a result and then the flag. The rules
below say what a register holds after each of the two. -/

namespace Sys2Proof.Machine

/-! ### One register written -/

theorem getElem_setV_self (s : State) (x : RegIdx) (b : Byte) : (s.setV x b).v[x] = b :=
  readReg_setV_self s x b

/-- A register write changes no other register and no other state. -/
theorem setV_frame (s : State) (x : RegIdx) (b : Byte) :
    (∀ k : RegIdx, k ≠ x → (s.setV x b).v[k] = s.v[k]) ∧
      s.setV x b = { s with v := (s.setV x b).v } :=
  ⟨fun _ hk => readReg_setV_of_ne s b hk, rfl⟩

/-- Settles O20: each load is one register write. -/
theorem loadsWriteOneRegister : Obligations.LoadsWriteOneRegister := fun x y nn s =>
  ⟨decodeOfEncodeIsTheInstruction (.ldImm x nn) rfl,
    ⟨_, exec_ldImm s x nn, getElem_setV_self s x nn, setV_frame s x nn⟩,
    decodeOfEncodeIsTheInstruction (.ldReg x y) rfl,
    ⟨_, exec_ldReg s x y, getElem_setV_self s x _, setV_frame s x _⟩⟩

/-- Settles O21: addition of bytes is addition modulo 256. -/
theorem addImmediateWrapsWithoutFlag : Obligations.AddImmediateWrapsWithoutFlag := by
  intro x nn s
  refine ⟨decodeOfEncodeIsTheInstruction (.addImm x nn) rfl,
    _, exec_addImm s x nn, ?_, setV_frame s x _⟩
  rw [getElem_setV_self, BitVec.toNat_add]

/-- Settles O22, operation by operation. -/
theorem logicalOperationsActBitwise : Obligations.LogicalOperationsActBitwise := by
  intro x y s
  refine ⟨decodeOfEncodeIsTheInstruction (.orReg x y) rfl,
    ⟨_, exec_orReg s x y, fun j _ => ?_, setV_frame s x _⟩,
    decodeOfEncodeIsTheInstruction (.andReg x y) rfl,
    ⟨_, exec_andReg s x y, fun j _ => ?_, setV_frame s x _⟩,
    decodeOfEncodeIsTheInstruction (.xorReg x y) rfl,
    ⟨_, exec_xorReg s x y, fun j _ => ?_, setV_frame s x _⟩⟩
  · rw [getElem_setV_self, BitVec.getLsbD_or]
  · rw [getElem_setV_self, BitVec.getLsbD_and]
  · rw [getElem_setV_self, BitVec.getLsbD_xor]

/-! ### A result and then the flag (R149) -/

theorem getElem_writeResultThenFlag_vF (s : State) (x : RegIdx) (r : Byte) (f : Bool) :
    (writeResultThenFlag s x r f).v[vF] = flagByte f :=
  (readReg_writeResultThenFlag s x vF r f).trans (if_pos rfl)

theorem getElem_writeResultThenFlag_self (s : State) {x : RegIdx} (hx : x ≠ vF) (r : Byte)
    (f : Bool) : (writeResultThenFlag s x r f).v[x] = r :=
  (readReg_writeResultThenFlag s x x r f).trans ((if_neg hx).trans (if_pos rfl))

theorem getElem_writeResultThenFlag_of_ne (s : State) {x k : RegIdx} (hk : k ≠ x) (hF : k ≠ vF)
    (r : Byte) (f : Bool) : (writeResultThenFlag s x r f).v[k] = s.v[k] :=
  (readReg_writeResultThenFlag s x k r f).trans ((if_neg hF).trans (if_neg hk))

/-- Result and flag change no register but `V[x]` and `VF`, and no other state. -/
theorem writeResultThenFlag_frame (s : State) (x : RegIdx) (r : Byte) (f : Bool) :
    (∀ k : RegIdx, k ≠ x → k ≠ vF → (writeResultThenFlag s x r f).v[k] = s.v[k]) ∧
      writeResultThenFlag s x r f = { s with v := (writeResultThenFlag s x r f).v } :=
  ⟨fun _ hk hF => getElem_writeResultThenFlag_of_ne s hk hF r f, writeResultThenFlag_eq s x r f⟩

/-- With `X = F` no register but `VF` changes, and no other state. -/
theorem writeResultThenFlag_vF_frame (s : State) (r : Byte) (f : Bool) :
    (∀ k : RegIdx, k ≠ vF → (writeResultThenFlag s vF r f).v[k] = s.v[k]) ∧
      writeResultThenFlag s vF r f = { s with v := (writeResultThenFlag s vF r f).v } :=
  ⟨fun _ hF => getElem_writeResultThenFlag_of_ne s hF hF r f, writeResultThenFlag_eq s vF r f⟩

/-- The carry as the byte that `VF` holds after `8XY4` (R147). -/
theorem getElem_vF_of_carry (s : State) (x : RegIdx) (r a b : Byte) :
    (writeResultThenFlag s x r (carryFlag a b)).v[vF] =
      if a.toNat + b.toNat > 255 then 1#8 else 0#8 :=
  (getElem_writeResultThenFlag_vF s x r _).trans (if_congr decide_eq_true_iff rfl rfl)

/-- The strict comparison as the byte that `VF` holds after `8XY5` and `8XY7` (R148, R151). -/
theorem getElem_vF_of_greater (s : State) (x : RegIdx) (r a b : Byte) :
    (writeResultThenFlag s x r (greaterFlag a b)).v[vF] =
      if a.toNat > b.toNat then 1#8 else 0#8 :=
  (getElem_writeResultThenFlag_vF s x r _).trans (if_congr decide_eq_true_iff rfl rfl)

/-- Subtraction of bytes is the integer difference modulo 256 (R140). -/
theorem toNat_sub_byte (a b : Byte) :
    ((a - b).toNat : Int) = ((a.toNat : Int) - (b.toNat : Int)) % 256 := by
  rw [BitVec.toNat_sub]
  omega

/-- Settles O23: the sum stands beside the carry, as `X` is not `F`. -/
theorem addSetsTheCarry : Obligations.AddSetsTheCarry := by
  intro x y s hx
  refine ⟨decodeOfEncodeIsTheInstruction (.addReg x y) rfl, _, exec_addReg s x y, ?_,
    getElem_vF_of_carry s x _ _ _, writeResultThenFlag_frame s x _ _⟩
  rw [getElem_writeResultThenFlag_self s hx, BitVec.toNat_add]

/-- Settles O24: one flag and one difference, with the operands in either order. -/
theorem subtractionsSetTheStrictFlag : Obligations.SubtractionsSetTheStrictFlag := by
  intro x y s hx
  refine ⟨decodeOfEncodeIsTheInstruction (.subReg x y) rfl,
    ⟨_, exec_subReg s x y, ?_, getElem_vF_of_greater s x _ _ _, writeResultThenFlag_frame s x _ _⟩,
    decodeOfEncodeIsTheInstruction (.subnReg x y) rfl,
    ⟨_, exec_subnReg s x y, ?_, getElem_vF_of_greater s x _ _ _, writeResultThenFlag_frame s x _ _⟩⟩
  · rw [getElem_writeResultThenFlag_self s hx, toNat_sub_byte]
  · rw [getElem_writeResultThenFlag_self s hx, toNat_sub_byte]

/-- Settles O25: the flag is computed from the old registers and written over the result. -/
theorem flagIsWrittenLast : Obligations.FlagIsWrittenLast := fun y s =>
  ⟨⟨_, exec_addReg s vF y, getElem_vF_of_carry s vF _ _ _, writeResultThenFlag_vF_frame s _ _⟩,
    ⟨_, exec_subReg s vF y, getElem_vF_of_greater s vF _ _ _, writeResultThenFlag_vF_frame s _ _⟩,
    ⟨_, exec_subnReg s vF y, getElem_vF_of_greater s vF _ _ _, writeResultThenFlag_vF_frame s _ _⟩⟩

/-! ### The shift that is a fault (R150) -/

/-- Settles O26: `SHR` is the fault entry with its own word. -/
theorem shiftAlwaysFaults : Obligations.ShiftAlwaysFaults := fun x y s =>
  ⟨decodeOfEncodeIsTheInstruction (.shrReg x y) rfl, exec_shrReg s x y⟩

end Sys2Proof.Machine

/-! PROOFS for 44_index_random.md. That no instruction but `CXNN` uses the draw of the step is
`exec_supplyDraw`; `exec_setDraws` says it of the free stream's counter, the other place where a
draw comes from. What `CXNN` answers is one equation for each of the two places. -/

namespace Sys2Proof.Machine

section

variable {s t : State} {i : Instr}

/-! ### The free stream reaches `CXNN` alone (R161) -/

theorem skipIf_setDraws (c : Bool) (s : State) (d : Nat) :
    skipIf c { s with draws := d } = { skipIf c s with draws := d } := by
  cases c <;> rfl

theorem raisedCause_setDraws {c : FaultCause} {d : Nat} :
    raisedCause i { s with draws := d } c ↔ raisedCause i s c :=
  raisedCause_congr (s := s) (s' := { s with draws := d }) rfl rfl rfl rfl rfl

/-- Any instruction but `CXNN` does the same wherever the free stream stands, and keeps its place:
a fault by its cause, a completion by its equation. -/
theorem exec_setDraws (hi : ∀ x nn, i ≠ .rnd x nn) (h : exec i s = .next t) (d : Nat) :
    exec i { s with draws := d } = .next { t with draws := d } := by
  rcases exec_cases i s with ⟨-, -, -, -, -, -, hno⟩ | ⟨c, hc, hfault⟩
  case inr =>
    cases hfault.symm.trans h
    exact exec_of_raisedCause (raisedCause_setDraws.2 hc)
  cases i with
  | rnd x nn => exact absurd rfl (hi x nn)
  | ret =>
    obtain hs | ⟨w, l, hs⟩ := stack_cases s
    · exact absurd ⟨rfl, List.length_eq_zero_iff.2 hs⟩ (hno .stackUnderflow)
    · cases (exec_ret_of_cons s hs).symm.trans h
      exact exec_ret_of_cons _ hs
  | call nnn =>
    have hroom : s.sp ≠ s.config.stackDepth := fun hfull =>
      hno .stackOverflow ⟨⟨nnn, rfl⟩, hfull⟩
    cases (exec_call_of_room s nnn hroom).symm.trans h
    exact exec_call_of_room _ nnn hroom
  | drw x y n =>
    cases hs : scanSprite s x y n with
    | error e => exact absurd (raisedCause_of_scanSprite_error hs) (hno e)
    | ok cs =>
      cases (exec_drw_of_ok s hs).symm.trans h
      have hscan : scanSprite { s with draws := d } x y n = scanSprite s x y n :=
        scanSprite_congr (s := s) (s' := { s with draws := d }) rfl rfl rfl rfl n
      exact exec_drw_of_ok _ (hscan.trans hs)
  | rsve b | rsvf b =>
    cases hp : s.config.efPolicy with
    | fault => exact absurd (.inr ⟨hp, b, by simp⟩) (hno .unimplementedOpcode)
    | noop =>
      cases (reservedWord_noop s _ hp).symm.trans h
      exact reservedWord_noop _ _ hp
  | seImm | sneImm | seReg | sneReg =>
    cases h
    exact congrArg Host.Outcome.next (skipIf_setDraws _ s d)
  | _ =>
    cases h
    rfl

/-- The free stream is left where it stood. -/
theorem draws_of_exec (hi : ∀ x nn, i ≠ .rnd x nn) (h : exec i s = .next t) :
    t.draws = s.draws := by
  have hsame : t = { t with draws := s.draws } :=
    Host.Outcome.next.inj (h.symm.trans (exec_setDraws hi h s.draws))
  rw [hsame]

/-- A step that fetches no `CXNN` ends in one way, whatever its draw is. -/
theorem hostStep_of_no_rnd (h : ∀ op x nn, fetch s = some op → decode op ≠ .ok (.rnd x nn)) :
    ∃ p, ∀ r, performHostOp (.step r) s = some p := by
  cases hs : s.halted with
  | true => exact ⟨_, hostStep_of_halted hs⟩
  | false =>
    rcases step_cases hs with ⟨hf, -⟩ | ⟨op, e, hf, he, -⟩ | ⟨op, i, hf, hd, -⟩
    · exact ⟨_, hostStep_of_stepFault hs (.noFetch hf)⟩
    · exact ⟨_, hostStep_of_stepFault hs (.noDecode op e hf he)⟩
    · have hi (x : RegIdx) (nn : Byte) : i ≠ .rnd x nn := by
        rintro rfl
        exact h op x nn hf hd
      obtain ⟨t, ht⟩ := exec_answers i (advancePc s)
      have hstep (r : Byte) : step (s.supplyDraw (some r)) = .next (t.supplyDraw (some r)) :=
        (step_of_decode (s := s.supplyDraw (some r)) hs hf hd).trans (exec_supplyDraw hi ht _)
      exact ⟨(t.supplyDraw s.suppliedDraw, .stepped (if t.halted then t.faultCause else .ok)),
        fun r => (hostStep_of_next (hstep r) :)⟩

/-! ### The draw under the mask (R162) -/

/-- With a draw supplied, `CXNN` takes that draw and leaves the free stream where it stands. -/
theorem exec_rnd_of_supplied {r : Byte} (h : s.suppliedDraw = some r) (x : RegIdx) (nn : Byte) :
    exec (.rnd x nn) s = .next ((s.supplyDraw none).setV x (r &&& nn)) := by
  simp only [exec_rnd, nextDraw, State.consumeDraw, h]
  rfl

/-- With none supplied, `CXNN` takes the next draw of the free stream. -/
theorem exec_rnd_of_free (h : s.suppliedDraw = none) (x : RegIdx) (nn : Byte) :
    exec (.rnd x nn) s =
      .next (({ s with draws := s.draws + 1 } : State).setV x
        (Config.randomByte s.draws &&& nn)) := by
  simp only [exec_rnd, nextDraw, State.consumeDraw, h]
  rfl

/-- A register that takes a masked draw holds it, is 0 outside the mask, and is alone changed. -/
theorem setV_masked (s : State) (x : RegIdx) (r nn : Byte) :
    (s.setV x (r &&& nn)).v[x] = r &&& nn ∧
      (∀ j < 8, nn.getLsbD j = false → (s.setV x (r &&& nn)).v[x].getLsbD j = false) ∧
      ∀ k : RegIdx, k ≠ x → (s.setV x (r &&& nn)).v[k] = s.v[k] := by
  obtain ⟨hframe, -⟩ := setV_frame s x (r &&& nn)
  refine ⟨getElem_setV_self s x _, fun j _ hj => ?_, hframe⟩
  rw [getElem_setV_self, BitVec.getLsbD_and, hj, Bool.and_false]

end

/-! ### The statements -/

/-- Settles O29: neither place where a draw comes from reaches another instruction. -/
theorem onlyRandomUsesTheDraw : Obligations.OnlyRandomUsesTheDraw := by
  refine ⟨fun i s t r d hi h => ⟨?_, draws_of_exec hi h, ?_⟩, fun s h r r' => ?_⟩
  · exact (congrArg State.suppliedDraw (supplyDraw_of_exec hi h)).symm
  · exact exec_setDraws hi (exec_supplyDraw hi h r) d
  · obtain ⟨p, hp⟩ := hostStep_of_no_rnd h
    rw [hp r, hp r']

/-- Settles O27: 12 bits fit in `I`. -/
theorem loadIndexWritesOnlyI : Obligations.LoadIndexWritesOnlyI := fun nnn s =>
  ⟨decodeOfEncodeIsTheInstruction (.ldI nnn) rfl, _, exec_ldI s nnn, toNat_setWidth_addr nnn, rfl⟩

/-- Settles O28, by where the draw comes from. -/
theorem randomIsTheDrawUnderTheMask : Obligations.RandomIsTheDrawUnderTheMask := by
  intro x nn s
  refine ⟨decodeOfEncodeIsTheInstruction (.rnd x nn) rfl, fun r hr => ?_, fun hfree => ?_⟩
  · obtain ⟨hx, hmask, hframe⟩ := setV_masked (s.supplyDraw none) x r nn
    exact ⟨_, exec_rnd_of_supplied hr x nn, hx, hmask, hframe, rfl⟩
  · obtain ⟨hx, hmask, hframe⟩ :=
      setV_masked { s with draws := s.draws + 1 } x (Config.randomByte s.draws) nn
    exact ⟨_, exec_rnd_of_free hfree x nn, hx, hmask, hframe, rfl⟩

end Sys2Proof.Machine

/-! PROOFS for 45_display.md. What a completed `DXYN` does is said once, as `DrawEffect`, in the
terms of the cells it covers; a draw whose rows fit has that effect, and so has any draw that leaves
the core running. Drawing twice is that effect two times, from states that agree on all it depends
on. A draw that faults does so on its first row that does not fit (`scanSprite_of_first_misfit`). -/

namespace Sys2Proof.Machine

theorem toggle_toggle (fb : Framebuffer) (c : FbCell) : (fb.toggle c).toggle c = fb := by
  refine framebuffer_ext fun d => ?_
  by_cases hd : d = c
  · subst hd
    simp only [isLit_toggle, if_true, Bool.not_not]
  · simp only [isLit_toggle, if_neg hd]

theorem flagByte_eq_one {f : Bool} : flagByte f = 1#8 ↔ f = true := by
  cases f <;> decide

/-- `DXYN` takes `s` to `t` and completes: the covered cells are flipped, `VF` says whether one of
them was lit, and nothing else changes (R175, R177). -/
structure DrawEffect (x y : RegIdx) (n : Nat) (s t : State) : Prop where
  covered : ∀ c, drawCovers s x y n c → t.fb.isLit c = !s.fb.isLit c
  uncovered : ∀ c, ¬ drawCovers s x y n c → t.fb.isLit c = s.fb.isLit c
  collision : t.v[vF] = 1#8 ↔ ∃ c, drawCovers s x y n c ∧ s.fb.isLit c = true
  isFlag : t.v[vF] = 0#8 ∨ t.v[vF] = 1#8
  registers : ∀ k : RegIdx, k ≠ vF → t.v[k] = s.v[k]
  frame : t = { s with v := t.v, fb := t.fb }

section

variable {x y : RegIdx} {n row : Nat} {s t : State}

/-- Phase 2 after a phase 1 without a failure: the cells listed are those covered, once each. -/
theorem drawEffect_of_scanSprite {cs : List FbCell} (h : scanSprite s x y n = .ok cs) :
    DrawEffect x y n s
      ((s.setFb (toggleAll cs s.fb).1).setV vF (flagByte (toggleAll cs s.fb).2)) := by
  obtain ⟨-, hnodup, hmem⟩ := scanSprite_ok h
  have hlit := isLit_toggleAll hnodup s.fb
  obtain ⟨hregisters, -⟩ := setV_frame (s.setFb (toggleAll cs s.fb).1) vF
    (flagByte (toggleAll cs s.fb).2)
  refine ⟨fun c hc => (hlit c).trans (if_pos ((hmem c).2 hc)),
    fun c hc => (hlit c).trans (if_neg fun hin => hc ((hmem c).1 hin)), ?_, ?_, hregisters, rfl⟩
  · simp only [getElem_setV_self, flagByte_eq_one, toggleAll_flag hnodup, hmem]
  · rw [getElem_setV_self]
    exact flagByte_eq_zero_or_one _

theorem exec_drw_of_fits (h : ∀ row < n, spriteRowFits s x y row) :
    ∃ t, exec (.drw x y n) s = .next t ∧ DrawEffect x y n s t := by
  obtain ⟨cs, hcs⟩ := scanSprite_of_fits h
  exact ⟨_, exec_drw_of_ok s hcs, drawEffect_of_scanSprite hcs⟩

/-- A draw that leaves the core running has passed every check (R178). -/
theorem drawFits_of_running (h : exec (.drw x y n) s = .next t) (ht : t.halted = false) :
    ∀ row < n, spriteRowFits s x y row := by
  cases hs : scanSprite s x y n with
  | ok cs => exact (scanSprite_ok hs).1
  | error e =>
    cases (exec_drw_of_error s hs).symm.trans h
    cases ht

/-! ### A second draw (R180) -/

/-- What a sprite covers, and whether it fits, depends on `I`, RAM and the operands alone. -/
theorem drawCovers_congr (hi : t.i = s.i) (hram : t.ram = s.ram) (hx : t.v[x] = s.v[x])
    (hy : t.v[y] = s.v[y]) {c : FbCell} : drawCovers t x y n c ↔ drawCovers s x y n c := by
  simp only [drawCovers, spriteBit, hi, hram, hx, hy]

theorem spriteRowFits_congr (hi : t.i = s.i) (hram : t.ram = s.ram) (hx : t.v[x] = s.v[x])
    (hy : t.v[y] = s.v[y]) : spriteRowFits t x y row ↔ spriteRowFits s x y row := by
  simp only [spriteRowFits, spriteBit, hi, hram, hx, hy]

/-- The second of two draws over the same cells turns each back. -/
theorem DrawEffect.twice_fb {u : State} (hst : DrawEffect x y n s t) (htu : DrawEffect x y n t u)
    (hsame : ∀ c, drawCovers t x y n c ↔ drawCovers s x y n c) : u.fb = s.fb := by
  refine framebuffer_ext fun c => ?_
  by_cases hc : drawCovers s x y n c
  · rw [htu.covered c ((hsame c).2 hc), hst.covered c hc, Bool.not_not]
  · rw [htu.uncovered c (mt (hsame c).1 hc), hst.uncovered c hc]

/-- The second of two draws over the same cells collides where a covered cell was unlit at first. -/
theorem DrawEffect.twice_collision {u : State} (hst : DrawEffect x y n s t)
    (htu : DrawEffect x y n t u) (hsame : ∀ c, drawCovers t x y n c ↔ drawCovers s x y n c) :
    u.v[vF] = 1#8 ↔ ∃ c, drawCovers s x y n c ∧ s.fb.isLit c = false := by
  rw [htu.collision]
  refine exists_congr fun c => (and_congr_left' (hsame c)).trans (and_congr_right fun hc => ?_)
  rw [hst.covered c hc, Bool.not_eq_true']

/-! ### A draw that faults (R178) -/

theorem exec_drw_of_first_misfit (hrow : row < n) (hfit : ∀ r < row, spriteRowFits s x y r)
    (hmisfit : ¬ spriteRowFits s x y row) :
    exec (.drw x y n) s =
      .next (enterFault
        (if 4095 < s.i.toNat + row then .spriteReadOutOfRange else .framebufferOutOfRange)
        (s.pc - 2) (0xD#4 ++ nibble x ++ nibble y ++ BitVec.ofNat 4 n) s) :=
  exec_drw_of_error s (scanSprite_of_first_misfit hrow hfit hmisfit)

end

/-! ### The statements -/

/-- Settles O32, by the effect of a draw that fits. -/
theorem drawFlipsCoveredCellsAndReportsCollision :
    Obligations.DrawFlipsCoveredCellsAndReportsCollision := by
  intro x y n s hfits
  obtain ⟨t, ht, heffect⟩ := exec_drw_of_fits hfits
  refine ⟨t, ht, heffect.covered, heffect.uncovered, heffect.collision.2, fun hunlit => ?_,
    heffect.registers, heffect.frame⟩
  refine heffect.isFlag.resolve_right fun hone => ?_
  obtain ⟨c, hc, hlit⟩ := heffect.collision.1 hone
  exact absurd (hunlit c hc) (by simp [hlit])

/-- Settles O33: the first row that does not fit decides, by its address before its bits. -/
theorem drawFaultsOnTheFirstFailingAccess : Obligations.DrawFaultsOnTheFirstFailingAccess := by
  intro x y n row s hrow hfit
  refine ⟨fun hout => ?_, fun j hj hin hbit hout => ?_⟩
  · rw [exec_drw_of_first_misfit hrow hfit fun h => absurd h.1 (by omega), if_pos hout]
    rfl
  · rw [exec_drw_of_first_misfit hrow hfit fun h => absurd (h.2 j hj hbit) (by omega),
      if_neg (by omega)]
    rfl

/-- Settles O34: both draws have the effect of a draw, over the same cells, as neither operand is
`VF` and a draw leaves `I` and RAM. -/
theorem drawingTwiceErases : Obligations.DrawingTwiceErases := by
  intro x y n s t hxF hyF _ hdraw hrunning
  have hfits := drawFits_of_running hdraw hrunning
  obtain ⟨t', hdraw', hst⟩ := exec_drw_of_fits hfits
  cases hdraw'.symm.trans hdraw
  have hi : t.i = s.i := by rw [hst.frame]
  have hram : t.ram = s.ram := by rw [hst.frame]
  have hx := hst.registers x hxF
  have hy := hst.registers y hyF
  obtain ⟨u, hu, htu⟩ := exec_drw_of_fits (s := t) fun row hrow =>
    (spriteRowFits_congr hi hram hx hy).2 (hfits row hrow)
  have hsame (c : FbCell) := drawCovers_congr (n := n) hi hram hx hy (c := c)
  have hfb : u.fb = s.fb := hst.twice_fb htu hsame
  refine ⟨u, hu, hfb, ?_, fun k hk => (htu.registers k hk).trans (hst.registers k hk),
    hst.collision, hst.twice_collision htu hsame, hst.isFlag, htu.isFlag⟩
  calc u = { t with v := u.v, fb := u.fb } := htu.frame
    _ = { s with v := u.v, fb := u.fb } := by rw [hst.frame]
    _ = { s with v := u.v } := by rw [hfb]

/-- Settles O30: the cleared grid has no lit cell. -/
theorem clearTurnsEveryCellOff : Obligations.ClearTurnsEveryCellOff :=
  ⟨decodeOfEncodeIsTheInstruction .cls rfl, fun s => ⟨_, exec_cls s, isLit_cleared, rfl⟩⟩

/-- Settles O31, by what a toggle makes of each cell. -/
theorem toggleFlipsOneCell : Obligations.ToggleFlipsOneCell := fun fb c d =>
  ⟨(isLit_toggle fb c c).trans (if_pos rfl), fun hd => (isLit_toggle fb c d).trans (if_neg hd),
    toggle_toggle fb c⟩

end Sys2Proof.Machine

/-! PROOFS for 46_reserved_classes.md. A reserved word does what `reservedWord` does under the policy;
an invalid word is the `noDecode` case of `StepFault`. -/

namespace Sys2Proof.Machine

/-- Settles O35, by the two policies. -/
theorem reservedClassesFollowThePolicy : Obligations.ReservedClassesFollowThePolicy :=
  fun bits s =>
  ⟨decodeOfEncodeIsTheInstruction (.rsve bits) rfl,
    decodeOfEncodeIsTheInstruction (.rsvf bits) rfl,
    fun hnoop => ⟨(exec_rsve s bits).trans (reservedWord_noop s _ hnoop),
      (exec_rsvf s bits).trans (reservedWord_noop s _ hnoop)⟩,
    fun hfault => ⟨(exec_rsve s bits).trans (reservedWord_fault s _ hfault),
      (exec_rsvf s bits).trans (reservedWord_fault s _ hfault)⟩⟩

/-- The fault of an invalid word, from its fetch to its entry (R103, R192). -/
theorem step_of_invalid {s : State} {op : Word} {e : DecodeError} (hs : s.halted = false)
    (hf : fetch s = some op) (he : decode op = .error e) :
    step s = .next (enterFault .invalidOpcode s.pc op (advancePc s)) :=
  step_of_stepFault hs (.noDecode op e hf he)

/-- Nothing is loaded at reset: the first word is 0, which class 0 does not hold (R80, R250). -/
theorem fetch_reset : fetch State.reset = some 0x0000#16 := by decide

theorem decode_zero : decode 0x0000#16 = .error .class0Word := by decide

/-- Settles O36; the first step after reset is one of these. -/
theorem invalidWordRaisesInvalidOpcode : Obligations.InvalidWordRaisesInvalidOpcode :=
  ⟨fun _ _ _ => step_of_invalid, step_of_invalid rfl fetch_reset decode_zero⟩

end Sys2Proof.Machine

/-! PROOFS for 60_exceptions.md. What the host's operations change is read off `HostEffect`; that a
program does not see the timers is one fact about `exec` (`exec_setTimers`); a load, a snapshot and a
tick have one equation each. -/

namespace Sys2Proof.Machine

/-! ### The timers are out of reach of an instruction (R223) -/

theorem raisedCause_setTimers {i : Instr} {s : State} {c : FaultCause} {d e : Byte} :
    raisedCause i (s.setTimers d e) c ↔ raisedCause i s c :=
  raisedCause_congr (s := s) (s' := s.setTimers d e) rfl rfl rfl rfl rfl

/-- Every instruction does the same whatever the timers hold, and keeps them: a fault by its cause, a
completion by its equation. -/
theorem exec_setTimers (i : Instr) (s : State) (d e : Byte) :
    ∃ t, exec i s = .next t ∧ exec i (s.setTimers d e) = .next (t.setTimers d e) := by
  rcases exec_cases i s with ⟨-, -, -, -, -, -, hno⟩ | ⟨c, hc, hfault⟩
  case inr => exact ⟨_, hfault, exec_of_raisedCause (raisedCause_setTimers.2 hc)⟩
  cases i with
  | ret =>
    obtain hs | ⟨w, l, hs⟩ := stack_cases s
    · exact absurd ⟨rfl, List.length_eq_zero_iff.2 hs⟩ (hno .stackUnderflow)
    · exact ⟨_, exec_ret_of_cons s hs, exec_ret_of_cons _ hs⟩
  | call nnn =>
    have hroom : s.sp ≠ s.config.stackDepth := fun hfull =>
      hno .stackOverflow ⟨⟨nnn, rfl⟩, hfull⟩
    exact ⟨_, exec_call_of_room s nnn hroom, exec_call_of_room _ nnn hroom⟩
  | drw x y n =>
    cases hs : scanSprite s x y n with
    | error e => exact absurd (raisedCause_of_scanSprite_error hs) (hno e)
    | ok cs =>
      have hscan : scanSprite (s.setTimers d e) x y n = .ok cs :=
        (scanSprite_congr (s := s) (s' := s.setTimers d e) rfl rfl rfl rfl n).trans hs
      exact ⟨_, exec_drw_of_ok s hs, exec_drw_of_ok _ hscan⟩
  | rsve b | rsvf b =>
    cases hp : s.config.efPolicy with
    | fault => exact absurd (.inr ⟨hp, b, by simp⟩) (hno .unimplementedOpcode)
    | noop => exact ⟨_, reservedWord_noop s _ hp, reservedWord_noop _ _ hp⟩
  | seImm x nn => exact ⟨_, exec_seImm s x nn, exec_seImm _ x nn⟩
  | sneImm x nn => exact ⟨_, exec_sneImm s x nn, exec_sneImm _ x nn⟩
  | seReg x y => exact ⟨_, exec_seReg s x y, exec_seReg _ x y⟩
  | sneReg x y => exact ⟨_, exec_sneReg s x y, exec_sneReg _ x y⟩
  | _ => exact ⟨_, rfl, rfl⟩

/-- Settles O41: the timers are out of reach of every effect of an instruction, and of the host's
effects only a reset and a tick change them. -/
theorem timersAreOutOfReachOfPrograms : Obligations.TimersAreOutOfReachOfPrograms := by
  refine ⟨fun i s t d e h => ?_, fun op s t r h => (performHostOp_effect h).timers_changed,
    fun s => ⟨rfl, rfl⟩⟩
  obtain ⟨-, hdt, hst, -⟩ := (exec_effect h).out_of_reach
  obtain ⟨t', ht', hsame⟩ := exec_setTimers i s d e
  cases ht'.symm.trans h
  exact ⟨hdt, hst, hsame⟩

/-! ### Loading (R228) -/

theorem hostLoad_of_le (s : State) {bytes : List Byte} (h : bytes.length ≤ 3584) :
    performHostOp (.load bytes) s =
      some (s.setRam (s.ram.writeAll programBase bytes), .loaded .ok) := by
  rw [performHostOp, load_of_le h]

theorem hostLoad_of_gt (s : State) {bytes : List Byte} (h : 3584 < bytes.length) :
    performHostOp (.load bytes) s = some (s, .loaded .loadOverflow) := by
  rw [performHostOp, load_of_gt h]

/-- Settles O45: up to 3584 bytes end at the last RAM address at most, so all are copied. -/
theorem loadCopiesVerbatimOrRefuses : Obligations.LoadCopiesVerbatimOrRefuses := by
  refine fun bytes s hwf => ⟨fun hl => ?_, hostLoad_of_gt s⟩
  have hend : programBase + bytes.length ≤ 4096 := by simp only [programBase]; omega
  refine ⟨_, hostLoad_of_le s hl, rfl, Memory.wf_writeAll hwf hend, fun k hk => ?_,
    fun addr haddr => Memory.read_congr ?_⟩
  · rw [State.setRam_ram, Memory.read_eq (by omega), Memory.byteAt_writeAll hwf hend,
      dif_pos (by simp only [programBase]; omega)]
    simp only [programBase, Nat.add_sub_cancel_left]
  · rw [State.setRam_ram, Memory.byteAt_writeAll hwf hend,
      dif_neg (by simp only [programBase]; omega)]

/-! ### The targets of the host (R233) -/

/-- Settles O51: the rest of the state by the effects of the operations, the cells by the one that
clears them, RAM by its writers. -/
theorem hostWritesOnlyItsOwnTargets : Obligations.HostWritesOnlyItsOwnTargets := by
  intro op s t r h hreset hstep
  have he := performHostOp_effect h
  have hcore := he.reset_or_step_or_core_unchanged.resolve_left
    (not_or.2 ⟨hreset, not_exists.2 hstep⟩)
  obtain ⟨-, -, hother, hload⟩ := noInstructionWritesRam
  refine ⟨(congrArg State.v hcore :), (congrArg State.pc hcore :), (congrArg State.i hcore :),
    (congrArg State.stack hcore :), (congrArg State.halted hcore :),
    (congrArg State.faultCause hcore :), (congrArg State.faultOpcode hcore :),
    (congrArg State.faultPc hcore :), he.config_unchanged,
    fun htick => ?_, (eq_or_ne t.fb s.fb).imp_right fun hfb => ?_, fun addr haddr => ?_⟩
  · by_contra hne
    obtain hop | ⟨hop, -⟩ := he.timers_changed (not_and_or.1 hne)
    · exact hreset hop
    · exact htick hop
  · obtain hop | rfl | ⟨d, hop⟩ := he.fb_changed hfb
    · exact absurd hop hreset
    · cases h
      exact ⟨rfl, isLit_cleared⟩
    · exact absurd hop (hstep d)
  · by_cases hop : ∃ bytes, op = .load bytes
    · obtain ⟨bytes, rfl⟩ := hop
      exact hload bytes s t r h addr (haddr.resolve_right fun hne => hne bytes rfl)
    · exact hother op s t r h hreset (not_exists.1 hop) addr

/-! ### The causes (R201) -/

/-- Settles O44, cause by cause. -/
theorem causesHaveTheirCodes : Obligations.CausesHaveTheirCodes :=
  ⟨rfl, rfl, rfl, rfl, rfl, rfl, rfl, rfl, fun _ => rfl⟩

/-! ### The display as the host sees it (R229, R230) -/

/-- Position `64 y + x` of the snapshot is the cell `(x, y)` (R33). -/
theorem getElem_framebufferSnapshot (s : State) (c : FbCell) :
    (framebufferSnapshot s)[64 * c.y.val + c.x.val]'(by omega) = s.fb.isLit c := by
  obtain ⟨x, y⟩ := c
  have hx : (64 * y.val + x.val) % 64 = x.val := by omega
  have hy : (64 * y.val + x.val) / 64 = y.val := by omega
  simp only [framebufferSnapshot, Vector.getElem_ofFn, hx, hy]

/-- Settles O47: the snapshot is a vector of 2048 cells, each at its position. -/
theorem snapshotIsRowMajor : Obligations.SnapshotIsRowMajor := fun s =>
  ⟨framebufferSnapshot s, rfl, Vector.length_toList, fun c => by
    rw [Vector.getElem?_toList, Vector.getElem?_eq_getElem (by omega),
      getElem_framebufferSnapshot]⟩

/-- Settles O48: the cleared grid has no lit cell. -/
theorem clearDisplayTouchesOnlyCells : Obligations.ClearDisplayTouchesOnlyCells := fun _ =>
  ⟨_, rfl, isLit_cleared, rfl⟩

/-! ### Reading the state (R231) -/

theorem hostReadState_at (s : State) (addr : Nat) :
    performHostOp (.readState (some addr)) s = some (s, .view (readState s) (s.ram.read addr)) :=
  rfl

/-- The stack is returned with its oldest entry first: entry `k` below the newest is at
`sp - 1 - k`. -/
theorem getElem?_readState_stack {s : State} {k : Nat} (hk : k < s.sp) :
    (readState s).stack[s.sp - 1 - k]? = s.stack[k]? := by
  simp only [State.sp] at hk ⊢
  calc s.stack.reverse[s.stack.length - 1 - k]?
      = s.stack[s.stack.length - 1 - (s.stack.length - 1 - k)]? :=
        List.getElem?_reverse (by omega)
    _ = s.stack[k]? := by rw [Nat.sub_sub_self (by omega)]

/-- Settles O49: the view by its fields, the byte of RAM by whether the address is one of RAM. -/
theorem readStateReturnsTheState : Obligations.ReadStateReturnsTheState := fun s =>
  ⟨readState s, rfl, fun addr h => by rw [hostReadState_at, Memory.read_eq h],
    fun addr h => by rw [hostReadState_at, Memory.read_eq_none.2 h],
    rfl, rfl, rfl, rfl, fun _ => getElem?_readState_stack, List.length_reverse,
    rfl, rfl, rfl, rfl, rfl, rfl⟩

/-! ### Timer ticks (R221, R232) -/

/-- A tick takes 1 and stops at 0, as subtraction of natural numbers does. -/
theorem toNat_tickTimer (b : Byte) : (tickTimer b).toNat = b.toNat - 1 := by
  unfold tickTimer
  split_ifs with h
  · rw [h]; rfl
  · bv_omega

theorem toNat_iterate_tickTimer (k : Nat) (b : Byte) : (tickTimer^[k] b).toNat = b.toNat - k := by
  induction k with
  | zero => rfl
  | succ k ih => rw [Function.iterate_succ_apply', toNat_tickTimer, ih, Nat.sub_sub]

theorem hostTick_of_hold {s : State} (h : s.config.timerMode = .hold) :
    performHostOp .timerTick s = none := by
  simp only [performHostOp, timerTick, h, Option.map_none]

theorem hostTick_of_tick {s : State} (h : s.config.timerMode = .tick) :
    performHostOp .timerTick s = some (s.setTimers (tickTimer s.dt) (tickTimer s.st), .none) := by
  simp only [performHostOp, timerTick, h, Option.map_some]

/-- Settles O50, by the mode. -/
theorem ticksCountDownToZero : Obligations.TicksCountDownToZero :=
  ⟨fun _ => hostTick_of_hold,
    fun s h => ⟨_, hostTick_of_tick h, toNat_tickTimer s.dt, toNat_tickTimer s.st, rfl⟩,
    toNat_iterate_tickTimer⟩

end Sys2Proof.Machine

/-! PROOFS for 70_reset_and_hazards.md. A run from reset is read off what a load leaves in RAM
(`loadCopiesVerbatimOrRefuses`) and the step of a decoded word (`step_of_decode`); a parked state is
one whose jump leads back to it (`exec_jp_to_self`). -/

namespace Sys2Proof.Machine

section

variable {s : State}

/-! ### From reset to the first word (R251, R255) -/

/-- What the two reads at `pc` answer is what is fetched, whoever wrote it (R52, R65). -/
theorem fetch_of_reads {b0 b1 : Byte} (h0 : s.ram.read s.pc.toNat = some b0)
    (h1 : s.ram.read (s.pc.toNat + 1) = some b1) : fetch s = some (b0 ++ b1) := by
  rw [fetch, h0, h1]
  rfl

/-! ### Parked states (R265) -/

/-- A jump to its own address undoes the advance of `pc`, and does nothing else (R121). -/
theorem exec_jp_to_self {nnn : Addr12} (h : nnn.setWidth 16 = s.pc) :
    exec (.jp nnn) (advancePc s) = .next s := by
  rw [exec_jp, h]
  rfl

theorem step_of_parked (h : Parked s) : step s = .next s := by
  obtain ⟨hs, nnn, hf, hself⟩ := h
  exact (step_of_decode hs hf (decodeOfEncodeIsTheInstruction (.jp nnn) rfl)).trans
    (exec_jp_to_self hself)

theorem hostStep_of_parked (h : Parked s) (r : Byte) :
    performHostOp (.step r) s = some (s, .stepped .ok) := by
  obtain ⟨hs, nnn, hf, hself⟩ := h
  exact hostStep_of_exec hs hf (decodeOfEncodeIsTheInstruction (.jp nnn) rfl) nofun
    (exec_jp_to_self hself) hs r

theorem run_of_fixed (M : Host.Core) {a : M.State} (h : M.step a = .next a) (k : Nat) :
    M.run k a = .next a := by
  induction k with
  | zero => rfl
  | succ k ih => exact (run_of_next M k h).trans ih

end

/-! ### The statements -/

/-- Settles O46: the load changes RAM alone, so `pc` still points at its first byte. -/
theorem loadedProgramRunsFromItsFirstWord : Obligations.LoadedProgramRunsFromItsFirstWord := by
  intro s b0 b1 rest hrest
  have hlen : (b0 :: b1 :: rest).length ≤ 3584 := by simp only [List.length_cons]; omega
  obtain ⟨hcopies, -⟩ := loadCopiesVerbatimOrRefuses (b0 :: b1 :: rest) (resetCore s) Memory.wf_nil
  obtain ⟨t, hload, ht, -, hbytes, -⟩ := hcopies hlen
  have hpc : t.pc = 0x200#16 := by rw [ht]; rfl
  have hrunning : t.halted = false := by rw [ht]; rfl
  have hf : fetch t = some (b0 ++ b1) := by
    apply fetch_of_reads <;> rw [hpc]
    · exact hbytes 0 (by simp)
    · exact hbytes 1 (by simp)
  have hadvance : advancePc t = { t with pc := 0x202#16 } := by rw [advancePc, hpc]; rfl
  refine ⟨resetCore s, t, rfl, hload, hpc, hrunning, hf, fun i hd => ?_⟩
  rw [step_of_decode hrunning hf hd, hadvance]

/-- Settles O56: the word at `pc` is a jump to itself, so each step leads back to the state. -/
theorem parkedStateIsAFixedPoint : Obligations.ParkedStateIsAFixedPoint := fun _ h =>
  ⟨hostStep_of_parked h, run_of_fixed Sys2Proof.core (step_of_parked h)⟩

end Sys2Proof.Machine
